-- ==== Sys2Proof/Word.lean ====
section
/-! DEFINITION. The word and address types of 00_scope.md R7, with their signed and unsigned readings. -/

namespace Sys2Proof

/-- A 16-bit pattern: register contents, memory cells, instructions (00_scope.md R7). -/
abbrev Word16 := BitVec 16

/-- A number in 0..4095 (00_scope.md R7). -/
abbrev Addr12 := BitVec 12

/-- `sval(w)`: the signed two's-complement value, -32768..32767 (00_scope.md R7). -/
abbrev sval (w : Word16) : Int := w.toInt

/-- `uval(w)`: the unsigned value, 0..65535 (00_scope.md R7). -/
abbrev uval (w : Word16) : Nat := w.toNat

end Sys2Proof
end

