-- ==== Sys2Proof/Syntax.lean ====
section
/-! DEFINITION. The fifteen instructions of 30_encoding.md R95, one constructor per row of the opcode table. -/

namespace Sys2Proof

/-- An instruction. The operand of the ten address forms is IR[11:0] as it stands (30_encoding.md R91); SkipCond keeps
its condition bits IR[11:10] (R94); the bits the other forms ignore (R93) are not part of the instruction (log 17). -/
inductive Instr where
  /-- Opcode 0, 41_memory_reference.md R131. -/
  | jnS (x : Addr12)
  /-- Opcode 1, R132. -/
  | load (x : Addr12)
  /-- Opcode 2, R133. -/
  | store (x : Addr12)
  /-- Opcode 3, R134. -/
  | add (x : Addr12)
  /-- Opcode 4, R135. -/
  | subt (x : Addr12)
  /-- Opcode 5, 42_io_and_halt.md R150. -/
  | input
  /-- Opcode 6, R153. -/
  | output
  /-- Opcode 7, R154. -/
  | halt
  /-- Opcode 8, 43_branch_and_clear.md R170. -/
  | skipCond (cond : BitVec 2)
  /-- Opcode 9, R172. -/
  | jump (x : Addr12)
  /-- Opcode 10, R173. -/
  | clear
  /-- Opcode 11, 44_indirect.md R191. -/
  | addI (x : Addr12)
  /-- Opcode 12, R192. -/
  | jumpI (x : Addr12)
  /-- Opcode 13, R193. -/
  | loadI (x : Addr12)
  /-- Opcode 14, R194. -/
  | storeI (x : Addr12)
  deriving DecidableEq, Repr

end Sys2Proof
end

