-- ==== Sys2Proof/WellFormed.lean ====
section
/-! DEFINITION. Which instructions are legal encodings (30_encoding.md R97, R98). -/

namespace Sys2Proof

/-- The field types already hold every bound. The one illegal encoding an instruction term can stand for is SkipCond
with cond = 11 (30_encoding.md R97, R98). It decodes and has a meaning, a fatal error (R99), so claims about the machine do not assume
this check. -/
def Instr.wellFormed : Instr → Bool
  | .skipCond cond => cond != 0b11#2
  | .jnS _ | .load _ | .store _ | .add _ | .subt _ | .input | .output | .halt | .jump _ | .clear
  | .addI _ | .jumpI _ | .loadI _ | .storeI _ => true

end Sys2Proof
end

