-- ==== Sys2Proof/Decode.lean ====
section
/-! DEFINITION. Decoding of the 65536 words (30_encoding.md R90 to R99), the encoder beside it, and the host's reading of an opcode-table word. -/

namespace Sys2Proof

/-- Why a word is no instruction: opcode 15 only (30_encoding.md R96, R98). -/
inductive DecodeReject where
  | illegalOpcode
  deriving DecidableEq, Repr

/-- Bits 15..12 (30_encoding.md R90). -/
def opcodeField (w : Word16) : BitVec 4 := w.extractLsb' 12 4

/-- Bits 11..0, unsigned, used as they stand (30_encoding.md R91). -/
def operandField (w : Word16) : Addr12 := w.extractLsb' 0 12

/-- SkipCond's condition, IR[11:10]; PRESUMED, the spec has the position from general knowledge
(30_encoding.md R94, log 9). -/
def condField (w : Word16) : BitVec 2 := w.extractLsb' 10 2

/-- The opcode map of 30_encoding.md R95, total on all words (R99). -/
def decode (w : Word16) : Except DecodeReject Instr :=
  match (opcodeField w).toNat with
  | 0 => .ok (.jnS (operandField w))
  | 1 => .ok (.load (operandField w))
  | 2 => .ok (.store (operandField w))
  | 3 => .ok (.add (operandField w))
  | 4 => .ok (.subt (operandField w))
  | 5 => .ok .input
  | 6 => .ok .output
  | 7 => .ok .halt
  | 8 => .ok (.skipCond (condField w))
  | 9 => .ok (.jump (operandField w))
  | 10 => .ok .clear
  | 11 => .ok (.addI (operandField w))
  | 12 => .ok (.jumpI (operandField w))
  | 13 => .ok (.loadI (operandField w))
  | 14 => .ok (.storeI (operandField w))
  | _ => .error .illegalOpcode

/-- A word of the one format of 30_encoding.md R90. -/
def wordOf (opcode : BitVec 4) (operand : Addr12) : Word16 := opcode ++ operand

/-- The word of an instruction by the same map; ignored bits are written zero (log 17). -/
def encode : Instr → Word16
  | .jnS x => wordOf 0 x
  | .load x => wordOf 1 x
  | .store x => wordOf 2 x
  | .add x => wordOf 3 x
  | .subt x => wordOf 4 x
  | .input => wordOf 5 0
  | .output => wordOf 6 0
  | .halt => wordOf 7 0
  | .skipCond cond => wordOf 8 (cond ++ 0#10)
  | .jump x => wordOf 9 x
  | .clear => wordOf 10 0
  | .addI x => wordOf 11 x
  | .jumpI x => wordOf 12 x
  | .loadI x => wordOf 13 x
  | .storeI x => wordOf 14 x

/-- The word whose bits the host numbers as spec/opcode_table.json does: one 16-bit word, bits above `nbits` zero. -/
def tableWord (nbits w : Nat) : Word16 := BitVec.ofNat 16 (w % 2 ^ nbits)

/-- What the decoder reads from a table word; `none` where it refuses. -/
def decodeTableWord (nbits w : Nat) : Option Instr :=
  match decode (tableWord nbits w) with
  | .ok i => some i
  | .error _ => none

end Sys2Proof
end

