-- ==== Sys2Proof/Config.lean ====
section
/-! DEFINITION. The implementation parameters of 00_scope.md R5 and the values the spec leaves open, each an uninterpreted constant. -/

namespace Sys2Proof

/-- Display mode of a register (10_state.md R32). -/
inductive Mode where
  | hex
  | decimal
  | ascii
  deriving DecidableEq, Repr, Inhabited

/-- The five data-class registers (10_state.md R20, R22). -/
inductive DataReg where
  | ac
  | ir
  | mbr
  | input
  | output
  deriving DecidableEq, Repr

/-- The two address-class registers (10_state.md R20, R23). -/
inductive AddrReg where
  | mar
  | pc
  deriving DecidableEq, Repr

/-- The seven registers of 10_state.md R20, by class. -/
inductive Reg where
  | data (r : DataReg)
  | addr (r : AddrReg)
  deriving DecidableEq, Repr

/-- Memory size in words (00_scope.md R5; 20_memory.md R60). -/
abbrev Config.memorySize : Nat := 4096

/-- `P_MODE0`: the display mode of each register after construction, OPEN in the spec
(00_scope.md R5, 92_eei_decisions.md D19). Free value, log 1. -/
opaque Config.pMode0 : Reg → Mode

/-- The word of each cell after the n-th rejected load: any value per cell (70_reset_and_hazards.md R269,
93_implementation_defined.md I4). Free value, log 7. -/
opaque Config.rejectedLoadWord : Nat → Nat → Word16

/-- Whether an image that is both too long and malformed is reported as too long. 70_reset_and_hazards.md R266
names a code for each ground and none for the two together. Free value, log 8. -/
opaque Config.capacityReportedFirst : Bool

end Sys2Proof
end

