-- ==== Sys2Proof/Machine/State.lean ====
section
/-! DEFINITION. The state of the block (10_state.md R20 to R43), the host moves it is driven by (60_exceptions.md R223) and its value after reset. -/

namespace Sys2Proof.Machine

/-- A data-class register: value and display mode (10_state.md R21, R22). -/
structure DataRegister where
  value : Word16
  mode : Mode
  deriving DecidableEq, Repr

/-- An address-class register: its value is always in 0..4095 (10_state.md R21, R23). -/
structure AddrRegister where
  value : Addr12
  mode : Mode
  deriving DecidableEq, Repr

/-- The six error codes, symbolic (60_exceptions.md R211, 92_eei_decisions.md D26). -/
inductive ErrorCode where
  | illegalOpcode
  | illegalConditionalOperand
  | addressOutOfRange
  | invalidProgramImage
  | maxProgramReached
  | invalidRegisterValue
  deriving DecidableEq, Repr

/-- The MachineState register (10_state.md R34; meanings in 60_exceptions.md R221). -/
inductive MState where
  | uninitialized
  | noProgramLoaded
  | running
  | blockedOnInput
  | paused
  | haltedNormal
  | haltedAbnormal
  | haltedByUser
  deriving DecidableEq, Repr

/-- The controller mode `ctl` (10_state.md R40(b), 60_exceptions.md R235). -/
inductive Ctl where
  | singleStep
  | runToCompletion
  | runToBreakpoint
  deriving DecidableEq, Repr

/-- The modes `run` accepts (60_exceptions.md R223). -/
inductive RunMode where
  | toCompletion
  | toBreakpoint
  deriving DecidableEq, Repr

/-- Memory: the cells that are not 0, by rising address (log 2). An unlisted cell reads 0 (20_memory.md R63). -/
abbrev Memory := List (Nat × Word16)

/-- One record of the output stream (10_state.md R39). -/
structure OutRecord where
  value : Word16
  mode : Mode
  deriving DecidableEq, Repr

/-- One entry of the AddressIndex (10_state.md R40(a)). -/
structure IndexEntry where
  addr : Nat
  line : Nat
  breakpoint : Bool
  deriving DecidableEq, Repr

/-- A text of the host, character by character. -/
abbrev Text := List Char

/-- A program-image record in its external form (70_reset_and_hazards.md R265). -/
structure ImageRecord where
  address : Text
  label : Text
  mnemonic : Text
  operandToken : Text
  word : Text
  deriving DecidableEq, Repr

/-- A program image; `unreadable` is an unreadable, corrupt or missing source (70_reset_and_hazards.md R266). -/
inductive Image where
  | unreadable
  | records (rs : List ImageRecord)
  deriving DecidableEq, Repr

/-- The host commands of 60_exceptions.md R223; `write_reg` has one constructor per register class (R231). -/
inductive Command where
  | reset
  | load (image : Image)
  | run (m : RunMode)
  | step
  | pause
  | stop
  | supply (v : Word16)
  | inputInvalid
  | writeData (r : DataReg) (v : Word16)
  | writeAddr (r : AddrReg) (v : Int)
  | writeRegText (r : Reg) (text : Text)
  | setMode (r : Reg) (m : Mode)
  | setBreakpoint (a : Addr12) (flag : Bool)
  | clearBreakpoints
  deriving DecidableEq, Repr

/-- One move of the host at an instruction boundary: a command, or none, which lets the machine run
(40_cycle.md R110 "when the host lets a cycle run"; log 4). -/
inductive HostMove where
  | command (c : Command)
  | letRun
  deriving DecidableEq, Repr

/-- What the host is told about a command (60_exceptions.md R224, R232; 70_reset_and_hazards.md R263; log 5). -/
inductive Reply where
  | accepted
  | refused
  | invalidLiteral
  | loadRejected (code : ErrorCode)
  deriving DecidableEq, Repr

/-- The whole state. `agenda`, `replies` and `draws` are the model's own (logs 4, 5, 7); everything else is the spec's.
There is no other state (10_state.md R41). -/
structure State where
  ac : DataRegister
  ir : DataRegister
  mbr : DataRegister
  input : DataRegister
  output : DataRegister
  mar : AddrRegister
  pc : AddrRegister
  mem : Memory
  mstate : MState
  fatal : Option ErrorCode
  fetchAddr : Addr12
  cursor : Option Nat
  outStream : List OutRecord
  addrIndex : List IndexEntry
  ctl : Ctl
  agenda : List HostMove
  replies : List Reply
  draws : Nat
  deriving DecidableEq, Repr

/-- Why the model would stop with a fault: never. A fatal error of the machine is a next state in HaltedAbnormal
(60_exceptions.md R213), and every other behaviour has a next state too (log 16). No constructor, so nobody raises one (safe). -/
inductive Fault where
  deriving DecidableEq, Repr

/-- Why the model would refuse. -/
inductive Refusal where
  /-- Raised by a refused arm of `exec`: the instruction has no meaning yet. Safe. -/
  | notModelled (mnemonic : String)
  /-- Raised by every meaning in an unconstructed machine, where no register or cell has a value and any read is
  refused (10_state.md R43, 93_implementation_defined.md I8; log 3). No step raises it. Safe. -/
  | uninitialized
  deriving DecidableEq, Repr

/-- What one step, or a part of it, answers. -/
abbrev Result := Host.Outcome State Fault Refusal

/-- The machine right after construction, which is a reset (10_state.md R42; 70_reset_and_hazards.md R260, R261):
registers and cells 0, modes `P_MODE0`, state NoProgramLoaded. The model's own fields are empty (log 18). -/
def State.reset : State where
  ac := ⟨0#16, Config.pMode0 (.data .ac)⟩
  ir := ⟨0#16, Config.pMode0 (.data .ir)⟩
  mbr := ⟨0#16, Config.pMode0 (.data .mbr)⟩
  input := ⟨0#16, Config.pMode0 (.data .input)⟩
  output := ⟨0#16, Config.pMode0 (.data .output)⟩
  mar := ⟨0#12, Config.pMode0 (.addr .mar)⟩
  pc := ⟨0#12, Config.pMode0 (.addr .pc)⟩
  mem := []
  mstate := .noProgramLoaded
  fatal := none
  fetchAddr := 0#12
  cursor := none
  outStream := []
  addrIndex := []
  ctl := .singleStep
  agenda := []
  replies := []
  draws := 0

end Sys2Proof.Machine
end

