-- ==== Sys2Proof/Machine/Flags.lean ====
section
/-! DEFINITION. There are no condition codes (10_state.md R33): SkipCond's direct test of AC, and Halt's reading of the fatal flag. -/

namespace Sys2Proof.Machine

/-- Whether SkipCond skips (43_branch_and_clear.md R170): the comparisons are signed. Condition 11 is a fatal error,
taken before this test. -/
def conditionHolds (cond : BitVec 2) (ac : Word16) : Bool :=
  if cond = 0b00#2 then decide (sval ac < 0)
  else if cond = 0b01#2 then decide (sval ac = 0)
  else if cond = 0b10#2 then decide (sval ac > 0)
  else false

/-- The state Halt enters, by the fatal flag (42_io_and_halt.md R154). -/
def haltState : Option ErrorCode → MState
  | none => .haltedNormal
  | some _ => .haltedAbnormal

end Sys2Proof.Machine
end

