-- ==== Sys2Proof/Machine/Operands.lean ====
section
/-! DEFINITION. The arithmetic primitives of 00_scope.md R7 and R8 by which operands and results become words and addresses. -/

namespace Sys2Proof.Machine

/-- `wrap16(n)`: n modulo 65536 (00_scope.md R8); on -32768..65535 it is `word16(n)` (R7). -/
def wrap16 (n : Int) : Word16 := BitVec.ofInt 16 n

/-- `mask12(n)`: n modulo 4096, for negative n too (00_scope.md R8). -/
def mask12 (n : Int) : Addr12 := BitVec.ofInt 12 n

/-- `zext_16(a)`: the word whose unsigned value is the address a (00_scope.md R7). -/
def zext16 (a : Addr12) : Word16 := a.setWidth 16

/-- The sum of Add and AddI: signed, wrapping, no trap (41_memory_reference.md R130). -/
def sum16 (a b : Word16) : Word16 := wrap16 (sval a + sval b)

/-- The difference of Subt (41_memory_reference.md R130). -/
def difference16 (a b : Word16) : Word16 := wrap16 (sval a - sval b)

end Sys2Proof.Machine
end

