-- ==== Sys2Proof/Machine/Ops.lean ====
section
/-! DEFINITION. The operations the instructions share: memory, AddressIndex, registers, the fatal error, the phases of the cycle, the boundary check and reset. -/

namespace Sys2Proof.Machine

/-! ### Memory cells (20_memory.md R60, R63) -/

/-- The word of a cell; an unlisted cell reads 0. -/
def Memory.read : Memory → Nat → Word16
  | [], _ => 0#16
  | (b, w) :: m, a => if a = b then w else Memory.read m a

/-- A cell with its word, unless the word is the 0 an unlisted cell reads as. -/
def Memory.cell (a : Nat) (v : Word16) : Memory := if v = 0#16 then [] else [(a, v)]

/-- Set a cell, keeping the canonical form. -/
def Memory.write : Memory → Nat → Word16 → Memory
  | [], a, v => Memory.cell a v
  | (b, w) :: m, a, v =>
    if a < b then Memory.cell a v ++ (b, w) :: m
    else if a = b then Memory.cell a v ++ m
    else (b, w) :: Memory.write m a v

/-- Every listed cell is above `lo`, in the address space, not 0, and the addresses rise strictly. -/
def Memory.wfFrom : Nat → Memory → Bool
  | _, [] => true
  | lo, (a, w) :: m => decide (lo ≤ a ∧ a < Config.memorySize ∧ w ≠ 0#16) && Memory.wfFrom (a + 1) m

/-- The canonical form of memory (log 2). -/
def Memory.wf (m : Memory) : Bool := Memory.wfFrom 0 m

/-- Memory with a word for every address below `n`, taken from `f`. -/
@[irreducible] def Memory.tabulate (f : Nat → Word16) (n : Nat) : Memory :=
  ((List.range n).map fun a => (a, f a)).filter fun c => c.2 != 0#16

/-! ### The AddressIndex (10_state.md R40(a)) -/

/-- The entry of an address. -/
def indexFind : List IndexEntry → Nat → Option IndexEntry
  | [], _ => none
  | e :: l, a => if e.addr = a then some e else indexFind l a

/-- Register an entry; a later record at the same address wins (70_reset_and_hazards.md R267). -/
def indexPut : List IndexEntry → IndexEntry → List IndexEntry
  | [], e => [e]
  | d :: l, e =>
    if e.addr < d.addr then e :: d :: l
    else if e.addr = d.addr then e :: l
    else d :: indexPut l e

/-- Set the breakpoint flag of one address (60_exceptions.md R234). -/
def indexFlag (l : List IndexEntry) (a : Nat) (flag : Bool) : List IndexEntry :=
  l.map fun e => if e.addr = a then { e with breakpoint := flag } else e

/-- Clear every breakpoint flag (60_exceptions.md R234). -/
def indexClear (l : List IndexEntry) : List IndexEntry :=
  l.map fun e => { e with breakpoint := false }

/-- Entries in the address space, by strictly rising address. -/
def indexWfFrom : Nat → List IndexEntry → Bool
  | _, [] => true
  | lo, e :: l => decide (lo ≤ e.addr ∧ e.addr < Config.memorySize) && indexWfFrom (e.addr + 1) l

/-- The canonical form of the AddressIndex: one entry per address. -/
def indexWf (l : List IndexEntry) : Bool := indexWfFrom 0 l

/-! ### Registers (10_state.md R22, R23) -/

/-- `setValue` of a data-class register stores the word. -/
def DataRegister.setValue (r : DataRegister) (raw : Word16) : DataRegister := { r with value := raw }

/-- `setValue` of an address-class register masks any integer to 12 bits, never rejecting it. -/
def AddrRegister.setValue (r : AddrRegister) (v : Int) : AddrRegister := { r with value := mask12 v }

def State.setAC (s : State) (v : Word16) : State := { s with ac := s.ac.setValue v }
def State.setIR (s : State) (v : Word16) : State := { s with ir := s.ir.setValue v }
def State.setMBR (s : State) (v : Word16) : State := { s with mbr := s.mbr.setValue v }
def State.setINPUT (s : State) (v : Word16) : State := { s with input := s.input.setValue v }
def State.setOUTPUT (s : State) (v : Word16) : State := { s with output := s.output.setValue v }
def State.setMAR (s : State) (v : Int) : State := { s with mar := s.mar.setValue v }
def State.setPC (s : State) (v : Int) : State := { s with pc := s.pc.setValue v }
def State.setMState (s : State) (m : MState) : State := { s with mstate := m }

/-! ### The fatal error (60_exceptions.md R213) -/

/-- `raise Fatal(c)`: record the code, replacing an older one (R218), and enter HaltedAbnormal. Nothing is saved and
nothing rolled back; there is no handler and no return (R216). -/
def raiseFatal (c : ErrorCode) (s : State) : State := { s with fatal := some c, mstate := .haltedAbnormal }

/-! ### Memory access (20_memory.md R61, R62) -/

/-- `MemRead(a, 1)`, handing the word to what follows. -/
def memRead (a : Int) (s : State) (k : Word16 → Result) : Result :=
  if 0 ≤ a ∧ a ≤ 4095 then k (s.mem.read a.toNat) else .next (raiseFatal .addressOutOfRange s)

/-- `MemWrite(a, 1, v)`, handing the state to what follows. -/
def memWrite (a : Int) (v : Word16) (s : State) (k : State → Result) : Result :=
  if 0 ≤ a ∧ a ≤ 4095 then k { s with mem := s.mem.write a.toNat v }
  else .next (raiseFatal .addressOutOfRange s)

/-! ### The phases of the cycle (40_cycle.md R110) -/

/-- The cursor after a fetch from `a`: its line if `a` has an entry, else unchanged (10_state.md R37, 40_cycle.md R112). -/
def cursorAfter (s : State) (a : Addr12) : Option Nat :=
  match indexFind s.addrIndex a.toNat with
  | some e => some e.line
  | none => s.cursor

/-- Fetch: MAR <- PC, IR <- M[MAR], then the fetch latch and the cursor (40_cycle.md R111, R112). -/
def fetchPhase (s : State) (k : State → Result) : Result :=
  let s := s.setMAR s.pc.value.toNat
  memRead s.mar.value.toNat s fun w =>
    let s := s.setIR w
    k { s with fetchAddr := s.mar.value, cursor := cursorAfter s s.mar.value }

/-- Operand fetch of an operand-requiring opcode: MAR <- X, MBR <- M[MAR] (40_cycle.md R114). -/
def operandPhase (x : Addr12) (s : State) (k : State → Result) : Result :=
  let s := s.setMAR x.toNat
  memRead s.mar.value.toNat s fun w => k (s.setMBR w)

/-- PC increment, checked before PC is written (40_cycle.md R115). -/
def incrementPhase (s : State) (k : State → Result) : Result :=
  if s.pc.value.toNat + 1 > 4095 then .next (raiseFatal .maxProgramReached s)
  else k (s.setPC (s.pc.value.toNat + 1))

/-- In an unconstructed machine nothing has a value and any read is refused (10_state.md R43; log 3). -/
def ifConstructed (s : State) (k : State → Result) : Result :=
  if s.mstate = .uninitialized then .refused .uninitialized else k s

/-- What decode does before the execute phase of an operand-requiring opcode (30_encoding.md R92; log 14). -/
def withOperand (x : Addr12) (s : State) (execute : State → Result) : Result :=
  ifConstructed s fun s => operandPhase x s fun s => incrementPhase s execute

/-- What decode does before the execute phase of the other opcodes (30_encoding.md R93; log 14). -/
def withoutOperand (s : State) (execute : State → Result) : Result :=
  ifConstructed s fun s => incrementPhase s execute

/-- The pointer step of AddI, LoadI and StoreI: MAR <- MBR, masked, MBR <- M[MAR] (44_indirect.md R190). -/
def pointerStep (s : State) (k : State → Result) : Result :=
  let s := s.setMAR (sval s.mbr.value)
  memRead s.mar.value.toNat s fun w => k (s.setMBR w)

/-- `Emit(v, m)` (10_state.md R39). -/
def emit (v : Word16) (m : Mode) (s : State) : State := { s with outStream := s.outStream ++ [⟨v, m⟩] }

/-! ### The boundary check (60_exceptions.md R236) -/

/-- Whether the line of the fetch address carries a set breakpoint flag. -/
def onBreakpoint (s : State) : Bool :=
  match indexFind s.addrIndex s.fetchAddr.toNat with
  | some e => e.breakpoint
  | none => false

/-- `BoundaryCheck()`: pause after an instruction on a breakpoint line. -/
def boundaryCheck (s : State) : State :=
  if s.ctl = .runToBreakpoint ∧ s.mstate = .running ∧ onBreakpoint s = true then s.setMState .paused else s

/-- The end of a cycle: a next state passes the boundary check, which does nothing unless it is Running. -/
def endCycle : Result → Result
  | .next s => .next (boundaryCheck s)
  | .fault f => .fault f
  | .refused r => .refused r

/-! ### Construction and reset (70_reset_and_hazards.md R260, R261) -/

/-- Construction gives every register its initial display mode (R260, D19; log 1). -/
def construct (s : State) : State :=
  { s with
    ac := { s.ac with mode := Config.pMode0 (.data .ac) }
    ir := { s.ir with mode := Config.pMode0 (.data .ir) }
    mbr := { s.mbr with mode := Config.pMode0 (.data .mbr) }
    input := { s.input with mode := Config.pMode0 (.data .input) }
    output := { s.output with mode := Config.pMode0 (.data .output) }
    mar := { s.mar with mode := Config.pMode0 (.addr .mar) }
    pc := { s.pc with mode := Config.pMode0 (.addr .pc) } }

/-- The reset of R261: everything but the display modes, and but the host's own side of the interface. -/
def resetBlock (s : State) : State :=
  { s with
    ac := s.ac.setValue 0#16
    ir := s.ir.setValue 0#16
    mbr := s.mbr.setValue 0#16
    input := s.input.setValue 0#16
    output := s.output.setValue 0#16
    mar := s.mar.setValue 0
    pc := s.pc.setValue 0
    mem := []
    fatal := none
    addrIndex := []
    cursor := none
    fetchAddr := 0#12
    ctl := .singleStep
    outStream := []
    mstate := .noProgramLoaded }

/-- The `reset` command: construction first, where the machine is not yet constructed (R260). -/
def hostReset (s : State) : State :=
  if s.mstate = .uninitialized then resetBlock (construct s) else resetBlock s

end Sys2Proof.Machine
end

