-- ==== Sys2Proof/Machine/BranchAndClear.lean ====
section
/-! DEFINITION. SkipCond, Jump, Clear (43_branch_and_clear.md). -/

namespace Sys2Proof.Machine

/-- R170. The skip is an ordinary masking write of PC (R171). -/
def execSkipCond (cond : BitVec 2) (s : State) : Result :=
  withoutOperand s fun s =>
    if cond = 0b11#2 then .next (raiseFatal .illegalConditionalOperand s)
    else if conditionHolds cond s.ac.value then .next (s.setPC (s.pc.value.toNat + 1))
    else .next s

/-- R172. -/
def execJump (x : Addr12) (s : State) : Result :=
  withoutOperand s fun s => .next (s.setPC x.toNat)

/-- R173. -/
def execClear (s : State) : Result :=
  withoutOperand s fun s => .next (s.setAC 0#16)

end Sys2Proof.Machine
end

