-- ==== Sys2Proof/Machine/Indirect.lean ====
section
/-! DEFINITION. AddI, JumpI, LoadI, StoreI (44_indirect.md). -/

namespace Sys2Proof.Machine

/-- R191. -/
def execAddI (x : Addr12) (s : State) : Result :=
  withOperand x s fun s => pointerStep s fun s => .next (s.setAC (sum16 s.ac.value s.mbr.value))

/-- R192. -/
def execJumpI (x : Addr12) (s : State) : Result :=
  withOperand x s fun s => .next (s.setPC (sval s.mbr.value))

/-- R193. -/
def execLoadI (x : Addr12) (s : State) : Result :=
  withOperand x s fun s => pointerStep s fun s => .next (s.setAC s.mbr.value)

/-- R194, the double-indirection chain as observed (90_conflicts.md C6); the final write is addressed by MBR, unmasked (R195). -/
def execStoreI (x : Addr12) (s : State) : Result :=
  withOperand x s fun s => pointerStep s fun s => memWrite (sval s.mbr.value) s.ac.value s .next

end Sys2Proof.Machine
end

