-- ==== Sys2Proof/Machine/InputOutputHalt.lean ====
section
/-! DEFINITION. Input, Output, Halt (42_io_and_halt.md). -/

namespace Sys2Proof.Machine

/-- R150, issue: the write of AC waits for the host's `supply` (R151). -/
def execInput (s : State) : Result :=
  withoutOperand s fun s => .next (s.setMState .blockedOnInput)

/-- R153. -/
def execOutput (s : State) : Result :=
  withoutOperand s fun s =>
    let s := s.setOUTPUT s.ac.value
    .next (emit s.output.value s.output.mode s)

/-- R154. -/
def execHalt (s : State) : Result :=
  withoutOperand s fun s => .next (s.setMState (haltState s.fatal))

end Sys2Proof.Machine
end

