-- ==== Sys2Proof/Machine/MemoryReference.lean ====
section
/-! DEFINITION. JnS, Load, Store, Add, Subt (41_memory_reference.md). -/

namespace Sys2Proof.Machine

/-- R131. PC is the address of the JnS plus one; the slot is MAR = X. -/
def execJnS (x : Addr12) (s : State) : Result :=
  withOperand x s fun s =>
    memWrite s.mar.value.toNat (zext16 s.pc.value) s fun s =>
      let s := s.setAC (wrap16 (s.mar.value.toNat + 1))
      .next (s.setPC (sval s.ac.value))

/-- R132. -/
def execLoad (x : Addr12) (s : State) : Result :=
  withOperand x s fun s => .next (s.setAC s.mbr.value)

/-- R133. -/
def execStore (x : Addr12) (s : State) : Result :=
  withOperand x s fun s => memWrite s.mar.value.toNat s.ac.value s .next

/-- R134. -/
def execAdd (x : Addr12) (s : State) : Result :=
  withOperand x s fun s => .next (s.setAC (sum16 s.ac.value s.mbr.value))

/-- R135. -/
def execSubt (x : Addr12) (s : State) : Result :=
  withOperand x s fun s => .next (s.setAC (difference16 s.ac.value s.mbr.value))

end Sys2Proof.Machine
end

