-- ==== Sys2Proof/Machine/Dispatch.lean ====
section
/-! DEFINITION. The opcode-to-handler table (40_cycle.md R116), one arm per instruction. -/

namespace Sys2Proof.Machine
open Sys2Proof

def exec (i : Instr) (s : State) : Host.Outcome State Fault Refusal :=
  match i with
  | .jnS x => Sys2Proof.Machine.execJnS x s
  | .load x => Sys2Proof.Machine.execLoad x s
  | .store x => Sys2Proof.Machine.execStore x s
  | .add x => Sys2Proof.Machine.execAdd x s
  | .subt x => Sys2Proof.Machine.execSubt x s
  | .input => Sys2Proof.Machine.execInput s
  | .output => Sys2Proof.Machine.execOutput s
  | .halt => Sys2Proof.Machine.execHalt s
  | .skipCond cond => Sys2Proof.Machine.execSkipCond cond s
  | .jump x => Sys2Proof.Machine.execJump x s
  | .clear => Sys2Proof.Machine.execClear s
  | .addI x => Sys2Proof.Machine.execAddI x s
  | .jumpI x => Sys2Proof.Machine.execJumpI x s
  | .loadI x => Sys2Proof.Machine.execLoadI x s
  | .storeI x => Sys2Proof.Machine.execStoreI x s

end Sys2Proof.Machine
end

