-- ==== Sys2Proof/Machine/Cycle.lean ====
section
/-! DEFINITION. One fetch-decode-execute cycle (40_cycle.md R110) and when the machine runs one by itself (60_exceptions.md R235). -/

namespace Sys2Proof.Machine

/-- Decode and what follows it, on the state after the fetch: an illegal opcode ends the cycle before the operand fetch
and the increment (40_cycle.md R113); otherwise the instruction runs and the boundary check ends the cycle. -/
def decodeAndExecute (s : State) : Result :=
  match decode s.ir.value with
  | .error .illegalOpcode => .next (raiseFatal .illegalOpcode s)
  | .ok i => endCycle (exec i s)

/-- `Cycle()`; its caller has checked that the state is Running. -/
def cycle (s : State) : Result := fetchPhase s decodeAndExecute

/-- Cycles run one after another in Running unless ctl is SingleStep (60_exceptions.md R235). -/
def runsFreely (s : State) : Bool := decide (s.mstate = .running ∧ s.ctl ≠ .singleStep)

/-- A boundary at which the host gives no command: a cycle if one may run, else the machine waits as it is (log 6). -/
def letRun (s : State) : Result := if runsFreely s then cycle s else .next s

end Sys2Proof.Machine
end

