-- ==== Sys2Proof/Machine/Literals.lean ====
section
/-! DEFINITION. Reading the host's literals: register texts (60_exceptions.md R232) and image fields (70_reset_and_hazards.md R265). -/

namespace Sys2Proof.Machine

/-- The decimal digits 0 to 9 (log 13). -/
def decDigit (c : Char) : Option Nat :=
  if 48 ≤ c.toNat ∧ c.toNat ≤ 57 then some (c.toNat - 48) else none

/-- The hex digits, in either case (log 11). -/
def hexDigit (c : Char) : Option Nat :=
  if 48 ≤ c.toNat ∧ c.toNat ≤ 57 then some (c.toNat - 48)
  else if 65 ≤ c.toNat ∧ c.toNat ≤ 70 then some (c.toNat - 55)
  else if 97 ≤ c.toNat ∧ c.toNat ≤ 102 then some (c.toNat - 87)
  else none

/-- A text of digits only, most significant first, continuing the number `acc`. -/
def digitsFrom (digit : Char → Option Nat) (base : Nat) : Nat → Text → Option Nat
  | acc, [] => some acc
  | acc, c :: t =>
    match digit c with
    | some d => digitsFrom digit base (acc * base + d) t
    | none => none

/-- A field of exactly `n` hex digits (70_reset_and_hazards.md R265, R266). -/
def hexField (n : Nat) (t : Text) : Option Nat :=
  if t.length = n then digitsFrom hexDigit 16 0 t else none

/-- Hex literal: one to four digits, the bit pattern. -/
def parseHex (t : Text) : Option Int :=
  if 1 ≤ t.length ∧ t.length ≤ 4 then (digitsFrom hexDigit 16 0 t).map Int.ofNat else none

/-- Decimal literal: an optional minus sign and at least one digit. -/
def parseDec : Text → Option Int
  | [] => none
  | c :: t =>
    if c = '-' then
      if t = [] then none else (digitsFrom decDigit 10 0 t).map fun n => -Int.ofNat n
    else (digitsFrom decDigit 10 0 (c :: t)).map Int.ofNat

/-- Ascii literal: the code of the first character, 0..127. -/
def parseAscii : Text → Option Int
  | [] => none
  | c :: _ => if c.toNat ≤ 127 then some (Int.ofNat c.toNat) else none

/-- The number a text denotes in a mode, before any range of the register. -/
def parseIn : Mode → Text → Option Int
  | .hex, t => parseHex t
  | .decimal, t => parseDec t
  | .ascii, t => parseAscii t

/-- The literal of a data-class register: a decimal one must be in -32768..32767 (60_exceptions.md R232, D18). -/
def parseDataLiteral (m : Mode) (t : Text) : Option Int :=
  match parseIn m t with
  | none => none
  | some n => if m = .decimal ∧ ¬(-32768 ≤ n ∧ n ≤ 32767) then none else some n

/-- The literal of an address-class register: any integer, masked when written (60_exceptions.md R232). -/
def parseAddrLiteral (m : Mode) (t : Text) : Option Int := parseIn m t

end Sys2Proof.Machine
end

