-- ==== Sys2Proof/Machine/Loader.lean ====
section
/-! DEFINITION. Loading a program image (70_reset_and_hazards.md R263 to R269). -/

namespace Sys2Proof.Machine

/-- A record whose address field is blank or whitespace is skipped (R265; log 12). -/
def ImageRecord.isBlank (r : ImageRecord) : Bool := r.address.all Char.isWhitespace

/-- The addressed records with their program lines, counted from `line` over all records (R263; log 10). -/
def addressedFrom : Nat → List ImageRecord → List (Nat × ImageRecord)
  | _, [] => []
  | line, r :: rs => if r.isBlank then addressedFrom (line + 1) rs else (line, r) :: addressedFrom (line + 1) rs

/-- A record the loader writes: address, word, program line (R264). -/
structure LoadedRecord where
  addr : Addr12
  word : Word16
  line : Nat
  deriving DecidableEq, Repr

/-- Three hex digits of address and four of word, most significant first; anything else is malformed (R265, R266). -/
def parseRecord (p : Nat × ImageRecord) : Option LoadedRecord :=
  match hexField 3 p.2.address, hexField 4 p.2.word with
  | some a, some w => some ⟨BitVec.ofNat 12 a, BitVec.ofNat 16 w, p.1⟩
  | _, _ => none

/-- All records, or none if one is malformed. -/
def parseRecords : List (Nat × ImageRecord) → Option (List LoadedRecord)
  | [] => some []
  | p :: ps =>
    match parseRecord p, parseRecords ps with
    | some r, some rs => some (r :: rs)
    | _, _ => none

/-- The code of an image with more than 4096 addressed records: MaxProgramReached (R266, D25); where it is malformed
too, the spec does not say which of the two codes is reported (log 8). -/
def overfullCode (malformed : Bool) : ErrorCode :=
  if malformed && !Config.capacityReportedFirst then .invalidProgramImage else .maxProgramReached

/-- The records of an image, or the code it is rejected with (R266). -/
def judgeImage : Image → Except ErrorCode (List LoadedRecord)
  | .unreadable => .error .invalidProgramImage
  | .records rs =>
    let addressed := addressedFrom 0 rs
    match parseRecords addressed with
    | some [] => .error .invalidProgramImage
    | some loaded =>
      if addressed.length > Config.memorySize then .error (overfullCode false) else .ok loaded
    | none =>
      if addressed.length > Config.memorySize then .error (overfullCode true) else .error .invalidProgramImage

/-- One pass of the loader's loop (R263). -/
def loadRecord (s : State) (r : LoadedRecord) : State :=
  { s with
    mem := s.mem.write r.addr.toNat r.word
    addrIndex := indexPut s.addrIndex ⟨r.addr.toNat, r.line, false⟩ }

/-- All records in order, so that a later one at the same address wins (R267). -/
def loadRecords : State → List LoadedRecord → State
  | s, [] => s
  | s, r :: rs => loadRecords (loadRecord s r) rs

/-- An accepted load, after its reset: write the records, PC <- the first record's address, HaltedNormal (R263). -/
def acceptImage (s : State) : List LoadedRecord → State
  | [] => s
  | r :: rs => ((loadRecords s (r :: rs)).setPC r.addr.toNat).setMState .haltedNormal

/-- A rejected load, after its reset: NoProgramLoaded, and memory that the spec leaves unspecified, a fresh free value
per cell (R269; log 7). -/
def rejectImage (s : State) : State :=
  { s with
    mem := Memory.tabulate (Config.rejectedLoadWord s.draws) Config.memorySize
    draws := s.draws + 1 }

/-- `load(image)` in a constructed machine, with what the host is told (R263). -/
def loadImage (image : Image) (s : State) : State × Reply :=
  match judgeImage image with
  | .ok loaded => (acceptImage (resetBlock s) loaded, .accepted)
  | .error code => (rejectImage (resetBlock s), .loadRejected code)

end Sys2Proof.Machine
end

