-- ==== Sys2Proof/Machine/HostCommands.lean ====
section
/-! DEFINITION. The host commands (60_exceptions.md R223 to R234), each one atomic transaction, and the host's observation (R243). -/

namespace Sys2Proof.Machine

/-- Tell the host (log 5). -/
def State.tell (s : State) (r : Reply) : State := { s with replies := s.replies ++ [r] }

/-- Where `run` and `step` are accepted: HaltedNormal, HaltedAbnormal, Paused, and Running with ctl = SingleStep
(R223, R224). -/
def resumable (s : State) : Bool :=
  decide (s.mstate = .haltedNormal ∨ s.mstate = .haltedAbnormal ∨ s.mstate = .paused
    ∨ (s.mstate = .running ∧ s.ctl = .singleStep))

/-- Where `stop` is accepted (R223). -/
def stoppable (s : State) : Bool :=
  decide (s.mstate = .running ∨ s.mstate = .paused ∨ s.mstate = .blockedOnInput)

/-- Where the commands on registers, modes and breakpoints are accepted (R223). -/
def constructed (s : State) : Bool := decide (s.mstate ≠ .uninitialized)

/-- Whether a command's row of R223 accepts it in this state; the set_breakpoint row asks for an AddressIndex entry
too (R234). -/
def accepts (c : Command) (s : State) : Bool :=
  match c with
  | .reset => true
  | .load _ => constructed s
  | .run _ => resumable s
  | .step => resumable s
  | .pause => decide (s.mstate = .running)
  | .stop => stoppable s
  | .supply _ => decide (s.mstate = .blockedOnInput)
  | .inputInvalid => decide (s.mstate = .blockedOnInput)
  | .writeData _ _ => constructed s
  | .writeAddr _ _ => constructed s
  | .writeRegText _ _ => constructed s
  | .setMode _ _ => constructed s
  | .setBreakpoint a _ => constructed s && (indexFind s.addrIndex a.toNat).isSome
  | .clearBreakpoints => constructed s

/-- `ctl` for a run mode. -/
def ctlOf : RunMode → Ctl
  | .toCompletion => .runToCompletion
  | .toBreakpoint => .runToBreakpoint

/-- `run(m)` (R225). -/
def runCommand (m : RunMode) (s : State) : State := { s with ctl := ctlOf m, mstate := .running }

/-- `step`, before its one cycle (R226). -/
def stepCommand (s : State) : State := { s with ctl := .singleStep, mstate := .running }

/-- `supply(v)`: the completion of Input (42_io_and_halt.md R151, 60_exceptions.md R229). -/
def supplyCommand (v : Word16) (s : State) : State :=
  let s := s.setINPUT v
  let s := s.setAC s.input.value
  boundaryCheck (s.setMState .running)

/-- `write_reg` on a data-class register (R231). -/
def writeData (r : DataReg) (v : Word16) (s : State) : State :=
  match r with
  | .ac => s.setAC v
  | .ir => s.setIR v
  | .mbr => s.setMBR v
  | .input => s.setINPUT v
  | .output => s.setOUTPUT v

/-- `write_reg` on an address-class register: any integer, stored masked (R231). -/
def writeAddr (r : AddrReg) (v : Int) (s : State) : State :=
  match r with
  | .mar => s.setMAR v
  | .pc => s.setPC v

/-- The current display mode of a register. -/
def modeOf (r : Reg) (s : State) : Mode :=
  match r with
  | .data .ac => s.ac.mode
  | .data .ir => s.ir.mode
  | .data .mbr => s.mbr.mode
  | .data .input => s.input.mode
  | .data .output => s.output.mode
  | .addr .mar => s.mar.mode
  | .addr .pc => s.pc.mode

/-- `write_reg_text(r, text)`: parse in r's current mode, then write, or InvalidLiteral with nothing changed (R232). -/
def writeText (r : Reg) (text : Text) (s : State) : State × Reply :=
  match r with
  | .data d =>
    match parseDataLiteral (modeOf r s) text with
    | some n => (writeData d (wrap16 n) s, .accepted)
    | none => (s, .invalidLiteral)
  | .addr a =>
    match parseAddrLiteral (modeOf r s) text with
    | some n => (writeAddr a n s, .accepted)
    | none => (s, .invalidLiteral)

/-- `set_mode(r, m)` (R233). -/
def setRegMode (r : Reg) (m : Mode) (s : State) : State :=
  match r with
  | .data .ac => { s with ac := { s.ac with mode := m } }
  | .data .ir => { s with ir := { s.ir with mode := m } }
  | .data .mbr => { s with mbr := { s.mbr with mode := m } }
  | .data .input => { s with input := { s.input with mode := m } }
  | .data .output => { s with output := { s.output with mode := m } }
  | .addr .mar => { s with mar := { s.mar with mode := m } }
  | .addr .pc => { s with pc := { s.pc with mode := m } }

/-- The effect of an accepted command other than the cycle of `step`, and what the host is told. -/
def commandEffect (c : Command) (s : State) : State × Reply :=
  match c with
  | .reset => (hostReset s, .accepted)
  | .load image => loadImage image s
  | .run m => (runCommand m s, .accepted)
  | .step => (stepCommand s, .accepted)
  | .pause => (s.setMState .paused, .accepted)
  | .stop => (s.setMState .haltedByUser, .accepted)
  | .supply v => (supplyCommand v s, .accepted)
  | .inputInvalid => (raiseFatal .invalidRegisterValue s, .accepted)
  | .writeData r v => (writeData r v s, .accepted)
  | .writeAddr r v => (writeAddr r v s, .accepted)
  | .writeRegText r text => writeText r text s
  | .setMode r m => (setRegMode r m s, .accepted)
  | .setBreakpoint a flag => ({ s with addrIndex := indexFlag s.addrIndex a.toNat flag }, .accepted)
  | .clearBreakpoints => ({ s with addrIndex := indexClear s.addrIndex }, .accepted)

/-- What follows the effect in the same transaction: `step` runs exactly one cycle (R226). -/
def afterCommand (c : Command) (s : State) : Result :=
  if c = .step then cycle s else .next s

/-- One host command: refused with nothing changed where its row does not accept it (R224). -/
def hostCommand (c : Command) (s : State) : Result :=
  if accepts c s then afterCommand c ((commandEffect c s).1.tell (commandEffect c s).2)
  else .next (s.tell .refused)

/-- What the host can read at a boundary (R243). -/
structure Observation where
  ac : DataRegister
  ir : DataRegister
  mbr : DataRegister
  input : DataRegister
  output : DataRegister
  mar : AddrRegister
  pc : AddrRegister
  mem : Memory
  mstate : MState
  fatal : Option ErrorCode
  outStream : List OutRecord
  addrIndex : List IndexEntry
  cursor : Option Nat
  deriving DecidableEq, Repr

/-- The host's reading of the block; refused in Uninitialized (R243, 10_state.md R43). It changes nothing. -/
def observe (s : State) : Option Observation :=
  if s.mstate = .uninitialized then none
  else some ⟨s.ac, s.ir, s.mbr, s.input, s.output, s.mar, s.pc, s.mem, s.mstate, s.fatal, s.outStream,
    s.addrIndex, s.cursor⟩

end Sys2Proof.Machine
end

