-- ==== Sys2Proof/Machine/Step.lean ====
section
/-! DEFINITION. One step: the next host command, or a cycle where the host lets the machine run (60_exceptions.md R219, R235), and the placing of an instruction where the next step fetches it. -/

namespace Sys2Proof.Machine

/-- One atomic step at an instruction boundary. The agenda carries the host's moves; when it is empty the host gives no
command (log 4). -/
def step (s : State) : Host.Outcome State Fault Refusal :=
  match s.agenda with
  | [] => letRun s
  | .letRun :: rest => letRun { s with agenda := rest }
  | .command c :: rest => hostCommand c { s with agenda := rest }

/-- `s` with a table word at PC, Running, in a mode that runs cycles and with no host move before it, so that the next
step fetches and runs it (log 15). -/
def State.withFetchWord (s : State) (nbits w : Nat) : State :=
  { s with
    mem := s.mem.write s.pc.value.toNat (tableWord nbits w)
    mstate := .running
    ctl := if s.ctl = .singleStep then .runToCompletion else s.ctl
    agenda := [] }

end Sys2Proof.Machine
end

