-- ==== Sys2Proof/Safety.lean ====
section
/-! DEFINITION. The terms claims are stated in: the states between the phases of a cycle, what a run's end is, the machine's invariant, the transition table, and states that differ in display modes only. -/

namespace Sys2Proof.Machine

/-! ### Between the phases of a cycle (40_cycle.md R110) -/

/-- A register with a new value and its own display mode. -/
abbrev DataRegister.holding (r : DataRegister) (v : Word16) : DataRegister := { r with value := v }
abbrev AddrRegister.holding (r : AddrRegister) (v : Addr12) : AddrRegister := { r with value := v }

/-- The word of a cell of the address space. -/
abbrev State.cell (s : State) (a : Addr12) : Word16 := s.mem.read a.toNat

/-- After the fetch (R111, R112). -/
def fetched (s : State) : State :=
  { s with
    mar := s.mar.holding s.pc.value
    ir := s.ir.holding (s.cell s.pc.value)
    fetchAddr := s.pc.value
    cursor := cursorAfter s s.pc.value }

/-- After the operand fetch of X (R114). -/
def operandFetched (x : Addr12) (s : State) : State :=
  { s with mar := s.mar.holding x, mbr := s.mbr.holding (s.cell x) }

/-- After the increment (R115). -/
def incremented (s : State) : State := { s with pc := s.pc.holding (s.pc.value + 1#12) }

/-- After the pointer step (44_indirect.md R190): MAR holds the pointer masked, MBR the word there. -/
def pointerFollowed (s : State) : State :=
  { s with
    mar := s.mar.holding (s.mbr.value.setWidth 12)
    mbr := s.mbr.holding (s.cell (s.mbr.value.setWidth 12)) }

/-- Whether an instruction's decode phase fetches an operand (30_encoding.md R92). -/
def operandOf : Instr → Option Addr12
  | .jnS x => some x
  | .load x => some x
  | .store x => some x
  | .add x => some x
  | .subt x => some x
  | .addI x => some x
  | .jumpI x => some x
  | .loadI x => some x
  | .storeI x => some x
  | .input => none
  | .output => none
  | .halt => none
  | .skipCond _ => none
  | .jump _ => none
  | .clear => none

/-- After the decode phase's operand fetch, if the instruction has one. -/
def decodedFor (i : Instr) (s : State) : State :=
  match operandOf i with
  | some x => operandFetched x s
  | none => s

/-- The one address an instruction stores to, where it stores (20_memory.md R64): X for JnS and Store, the word MBR holds after the
pointer step for StoreI. -/
def storeAddress (i : Instr) (s : State) : Option Int :=
  match i with
  | .jnS x => some x.toNat
  | .store x => some x.toNat
  | .storeI x => some (sval (pointerFollowed (operandFetched x s)).mbr.value)
  | .load _ => none
  | .add _ => none
  | .subt _ => none
  | .input => none
  | .output => none
  | .halt => none
  | .skipCond _ => none
  | .jump _ => none
  | .clear => none
  | .addI _ => none
  | .jumpI _ => none
  | .loadI _ => none

/-- The instructions that write AC in their own cycle (10_state.md R25; Input writes it at its completion). -/
def writesAC : Instr → Bool
  | .jnS _ | .load _ | .add _ | .subt _ | .clear | .addI _ | .loadI _ => true
  | .store _ | .input | .output | .halt | .skipCond _ | .jump _ | .jumpI _ | .storeI _ => false

/-- The instructions with a pointer step (44_indirect.md R190). -/
def followsPointer : Instr → Bool
  | .addI _ | .loadI _ | .storeI _ => true
  | .jnS _ | .load _ | .store _ | .add _ | .subt _ | .input | .output | .halt | .skipCond _ | .jump _ | .clear
  | .jumpI _ => false

/-- The instructions that write MachineState as their own effect (10_state.md R34). -/
def writesMState : Instr → Bool
  | .input | .halt => true
  | .jnS _ | .load _ | .store _ | .add _ | .subt _ | .output | .skipCond _ | .jump _ | .clear | .addI _ | .jumpI _
  | .loadI _ | .storeI _ => false

/-- The instructions whose execute phase can raise a fatal error: SkipCond with cond = 11 and StoreI
(60_exceptions.md R212). -/
def mayRaise : Instr → Bool
  | .skipCond cond => cond == 0b11#2
  | .storeI _ => true
  | .jnS _ | .load _ | .store _ | .add _ | .subt _ | .input | .output | .halt | .jump _ | .clear | .addI _ | .jumpI _
  | .loadI _ => false

/-! ### Frames -/

/-- Every display mode is as before (written by `set_mode` only, 10_state.md R32). -/
def SameModes (s t : State) : Prop :=
  t.ac.mode = s.ac.mode ∧ t.ir.mode = s.ir.mode ∧ t.mbr.mode = s.mbr.mode ∧ t.input.mode = s.input.mode
    ∧ t.output.mode = s.output.mode ∧ t.mar.mode = s.mar.mode ∧ t.pc.mode = s.pc.mode

/-- What no execute phase writes: the fetch latch, the cursor, the AddressIndex, the controller mode (10_state.md R37, R40)
and the model's own fields. -/
def SameController (s t : State) : Prop :=
  t.fetchAddr = s.fetchAddr ∧ t.cursor = s.cursor ∧ t.addrIndex = s.addrIndex ∧ t.ctl = s.ctl
    ∧ t.agenda = s.agenda ∧ t.replies = s.replies ∧ t.draws = s.draws

/-! ### The end of a run (70_reset_and_hazards.md R272) -/

/-- A run has ended: the state is neither Running nor BlockedOnInput, in a machine with a program. -/
def Ended (s : State) : Prop :=
  s.mstate = .haltedNormal ∨ s.mstate = .haltedAbnormal ∨ s.mstate = .haltedByUser ∨ s.mstate = .paused

/-- It ended normally. -/
def EndedNormally (s : State) : Prop := s.mstate = .haltedNormal

/-! ### The invariant -/

/-- What every step keeps: memory and AddressIndex are canonical; an abnormal halt carries a code (10_state.md R35, 60_exceptions.md R213);
a machine without a program is clean (10_state.md R42); every other constructed machine has a loaded program (20_memory.md R71); the cursor names a line of
the loaded program (10_state.md R37). -/
structure Inv (s : State) : Prop where
  mem_wf : s.mem.wf = true
  index_wf : indexWf s.addrIndex = true
  abnormal_has_code : s.mstate = .haltedAbnormal → s.fatal ≠ none
  no_program_clean : s.mstate = .noProgramLoaded →
    s.fatal = none ∧ s.addrIndex = [] ∧ s.outStream = [] ∧ s.ctl = .singleStep
  program_loaded : s.mstate ≠ .uninitialized → s.mstate ≠ .noProgramLoaded → s.addrIndex ≠ []
  cursor_listed : ∀ line, s.cursor = some line → ∃ e ∈ s.addrIndex, e.line = line

/-! ### The transition table (60_exceptions.md R222) -/

/-- The command the next step gives, if any. -/
def nextCommand (s : State) : Option Command :=
  match s.agenda with
  | .command c :: _ => some c
  | .letRun :: _ => none
  | [] => none

/-- Where a cycle may leave the machine, by ctl (the rows of R222 that a cycle takes). -/
def cycleTarget (ctl : Ctl) (m : MState) : Prop :=
  m = .running ∨ m = .blockedOnInput ∨ m = .haltedNormal ∨ m = .haltedAbnormal
    ∨ (m = .paused ∧ ctl = .runToBreakpoint)

/-- The states `run` and `step` leave (R222). -/
def resumes (ctl : Ctl) (m : MState) : Prop :=
  m = .haltedNormal ∨ m = .haltedAbnormal ∨ m = .paused ∨ (m = .running ∧ ctl = .singleStep)

/-- From `m` under `ctl`, the event of one step (a command, or none) may lead to `m'`: the rows of R222, or no change.
`step` is its row into Running and then the row of its cycle; `supply` is its row into Running and then the boundary check. -/
def TransitionRow (event : Option Command) (ctl : Ctl) (m m' : MState) : Prop :=
  match event with
  | none => m' = m ∨ (m = .running ∧ ctl ≠ .singleStep ∧ cycleTarget ctl m')
  | some .reset => m' = .noProgramLoaded
  | some (.load _) => if m = .uninitialized then m' = m else m' = .haltedNormal ∨ m' = .noProgramLoaded
  | some (.run _) => (resumes ctl m ∧ m' = .running) ∨ (¬resumes ctl m ∧ m' = m)
  | some .step => (resumes ctl m ∧ cycleTarget .singleStep m') ∨ (¬resumes ctl m ∧ m' = m)
  | some .pause => if m = .running then m' = .paused else m' = m
  | some .stop =>
    if m = .running ∨ m = .paused ∨ m = .blockedOnInput then m' = .haltedByUser else m' = m
  | some (.supply _) =>
    if m = .blockedOnInput then m' = .running ∨ (m' = .paused ∧ ctl = .runToBreakpoint) else m' = m
  | some .inputInvalid => if m = .blockedOnInput then m' = .haltedAbnormal else m' = m
  | some (.writeData _ _) => m' = m
  | some (.writeAddr _ _) => m' = m
  | some (.writeRegText _ _) => m' = m
  | some (.setMode _ _) => m' = m
  | some (.setBreakpoint _ _) => m' = m
  | some .clearBreakpoints => m' = m

/-! ### A host command taken from the agenda -/

/-- The next move of the host is `c`, with `rest` after it. -/
def Gives (s : State) (c : Command) (rest : List HostMove) : Prop := s.agenda = .command c :: rest

/-- The host's side of the interface after a command was taken and answered. -/
def answered (s : State) (rest : List HostMove) (r : Reply) : State :=
  { s with agenda := rest, replies := s.replies ++ [r] }

/-- A cycle runs in the next step without a host command (40_cycle.md R110, 60_exceptions.md R235). -/
def CycleRuns (s : State) : Prop := s.mstate = .running ∧ s.ctl ≠ .singleStep ∧ nextCommand s = none

/-- The last of the records at an address (70_reset_and_hazards.md R267). -/
def lastAt (rs : List LoadedRecord) (a : Nat) : Option LoadedRecord := rs.reverse.find? fun r => r.addr.toNat == a

/-- Where the row of a command accepts it (60_exceptions.md R223; R234 for the entry that set_breakpoint asks for). -/
def AcceptedIn (c : Command) (s : State) : Prop :=
  match c with
  | .reset => True
  | .run _ => resumes s.ctl s.mstate
  | .step => resumes s.ctl s.mstate
  | .pause => s.mstate = .running
  | .stop => s.mstate = .running ∨ s.mstate = .paused ∨ s.mstate = .blockedOnInput
  | .supply _ => s.mstate = .blockedOnInput
  | .inputInvalid => s.mstate = .blockedOnInput
  | .setBreakpoint a _ => s.mstate ≠ .uninitialized ∧ ∃ e, indexFind s.addrIndex a.toNat = some e
  | .load _ => s.mstate ≠ .uninitialized
  | .writeData _ _ => s.mstate ≠ .uninitialized
  | .writeAddr _ _ => s.mstate ≠ .uninitialized
  | .writeRegText _ _ => s.mstate ≠ .uninitialized
  | .setMode _ _ => s.mstate ≠ .uninitialized
  | .clearBreakpoints => s.mstate ≠ .uninitialized

/-! ### What a text of the host denotes (60_exceptions.md R232; 70_reset_and_hazards.md R265) -/

/-- The decimal digits with their values (log 13). -/
def decimalDigits : List (Char × Nat) :=
  [('0', 0), ('1', 1), ('2', 2), ('3', 3), ('4', 4), ('5', 5), ('6', 6), ('7', 7), ('8', 8), ('9', 9)]

/-- The hex digits with their values (log 11). -/
def hexDigits : List (Char × Nat) :=
  decimalDigits ++ [('A', 10), ('B', 11), ('C', 12), ('D', 13), ('E', 14), ('F', 15)]
    ++ [('a', 10), ('b', 11), ('c', 12), ('d', 13), ('e', 14), ('f', 15)]

/-- The text is written in these digits, and `ds` are their values in order. -/
def Spells (digits : List (Char × Nat)) (t : Text) (ds : List Nat) : Prop :=
  List.Forall₂ (fun c d => (c, d) ∈ digits) t ds

/-- The number that digit values denote, most significant first. -/
def placeValue (base : Nat) : List Nat → Nat
  | [] => 0
  | d :: ds => d * base ^ ds.length + placeValue base ds

/-- A hex literal: one to four hex digits. -/
def HexLiteral (t : Text) (n : Int) : Prop :=
  1 ≤ t.length ∧ t.length ≤ 4 ∧ ∃ ds, Spells hexDigits t ds ∧ n = placeValue 16 ds

/-- A decimal literal: one or more decimal digits, or a minus sign and such digits. -/
def DecimalLiteral (t : Text) (n : Int) : Prop :=
  (t ≠ [] ∧ ∃ ds, Spells decimalDigits t ds ∧ n = placeValue 10 ds) ∨
    ∃ u, t = '-' :: u ∧ u ≠ [] ∧ ∃ ds, Spells decimalDigits u ds ∧ n = -(placeValue 10 ds : Int)

/-- An ascii literal: the code of the first character, at most 127. -/
def AsciiLiteral (t : Text) (n : Int) : Prop := ∃ c rest, t = c :: rest ∧ c.toNat ≤ 127 ∧ n = c.toNat

/-- The literals of a display mode. -/
def LiteralIn : Mode → Text → Int → Prop
  | .hex => HexLiteral
  | .decimal => DecimalLiteral
  | .ascii => AsciiLiteral

/-- An image field of exactly `len` hex digits. -/
def HexField (len : Nat) (t : Text) (v : Nat) : Prop :=
  t.length = len ∧ ∃ ds, Spells hexDigits t ds ∧ v = placeValue 16 ds

/-- A record at its line is the loaded record of its address and its word (R264, R265). -/
def RecordOf (p : Nat × ImageRecord) (r : LoadedRecord) : Prop :=
  HexField 3 p.2.address r.addr.toNat ∧ HexField 4 p.2.word r.word.toNat ∧ r.line = p.1

/-- The records whose address is not blank, each with its position among all records from 0 (R265; logs 10, 12). -/
def addressedRecords (rs : List ImageRecord) : List (Nat × ImageRecord) :=
  (rs.zipIdx.filter fun p => !(p.1.address.all fun c => [' ', '\t', '\r', '\n'].contains c)).map fun p => (p.2, p.1)

/-! ### States that differ in display modes only (10_state.md R32) -/

/-- The state with every display mode, and every tag of the output stream, set to one mode. -/
def withoutModes (s : State) : State :=
  { s with
    ac := ⟨s.ac.value, .hex⟩
    ir := ⟨s.ir.value, .hex⟩
    mbr := ⟨s.mbr.value, .hex⟩
    input := ⟨s.input.value, .hex⟩
    output := ⟨s.output.value, .hex⟩
    mar := ⟨s.mar.value, .hex⟩
    pc := ⟨s.pc.value, .hex⟩
    outStream := s.outStream.map fun r => ⟨r.value, .hex⟩ }

/-- The same of a result. -/
def resultWithoutModes : Result → Result
  | .next s => .next (withoutModes s)
  | .fault f => .fault f
  | .refused r => .refused r

/-- The commands that parse a text in a display mode. -/
def readsMode : Option Command → Bool
  | some (.writeRegText _ _) => true
  | _ => false

end Sys2Proof.Machine
end

