-- ==== Sys2Proof/Certificates/Slice0/Obligations.lean ====
section
/-! DEFINITION. The statements for the provers, from the numbered rules of spec/. "Decision D<n>" names a choice of the spec's own (92_eei_decisions.md), "log n" an entry of notes/assumptions. -/

open Sys2Proof Sys2Proof.Machine

/-! ### Encoding -/

/-- 30_encoding.md R95: one word of each row, and an illegal one, from the spec's own examples. -/
def Obligations.SpecExampleWordsDecode : Prop :=
  decode 0x0020#16 = .ok (.jnS 0x020#12) ∧ decode 0x1050#16 = .ok (.load 0x050#12)
    ∧ decode 0x2030#16 = .ok (.store 0x030#12) ∧ decode 0x3030#16 = .ok (.add 0x030#12)
    ∧ decode 0x4030#16 = .ok (.subt 0x030#12) ∧ decode 0x5ABC#16 = .ok .input
    ∧ decode 0x6000#16 = .ok .output ∧ decode 0x7000#16 = .ok .halt
    ∧ decode 0x8400#16 = .ok (.skipCond 0b01#2) ∧ decode 0x9123#16 = .ok (.jump 0x123#12)
    ∧ decode 0xAFFF#16 = .ok .clear ∧ decode 0xB030#16 = .ok (.addI 0x030#12)
    ∧ decode 0xC030#16 = .ok (.jumpI 0x030#12) ∧ decode 0xD030#16 = .ok (.loadI 0x030#12)
    ∧ decode 0xE030#16 = .ok (.storeI 0x030#12) ∧ decode 0xF000#16 = .error .illegalOpcode

/-- 30_encoding.md R99 (derived there): every word is an instruction, or illegal exactly when its opcode is 15. The
clause on 0x8C00..0x8FFF rests on the position of the condition bits (log 9). -/
def Obligations.DecodingIsTotal : Prop :=
  ∀ w : Word16,
    (decode w = .error .illegalOpcode ↔ 0xF000 ≤ w.toNat)
      ∧ (w.toNat < 0xF000 → ∃ i, decode w = .ok i)
      ∧ (0x8C00 ≤ w.toNat → w.toNat ≤ 0x8FFF → decode w = .ok (.skipCond 0b11#2))

/-- Decoding the encoding of any instruction gives it back, at every operand. -/
def Obligations.DecodeInvertsEncode : Prop := ∀ i : Instr, decode (encode i) = .ok i

/-- The other direction: a word and the encoding of what it decodes to agree on every bit the decoder reads
(30_encoding.md R98): all sixteen for the address forms, opcode and condition for SkipCond (position: log 9), the
opcode for the rest. -/
def Obligations.EncodeAgreesOnTheBitsRead : Prop :=
  ∀ (w : Word16) (i : Instr), decode w = .ok i →
    (encode i).toNat / 4096 = w.toNat / 4096
      ∧ ((operandOf i ≠ none ∨ ∃ x, i = .jump x) → encode i = w)
      ∧ (∀ cond, i = .skipCond cond → (encode i).toNat / 1024 = w.toNat / 1024)

/-- 30_encoding.md R93 (decision D3) and R94 (log 9): the operand bits of Input, Output, Halt and Clear and
the low ten bits of SkipCond do not matter. -/
def Obligations.IgnoredBitsDoNotMatter : Prop :=
  ∀ w w' : Word16,
    (w.toNat / 4096 = w'.toNat / 4096 →
      w.toNat / 4096 = 5 ∨ w.toNat / 4096 = 6 ∨ w.toNat / 4096 = 7 ∨ w.toNat / 4096 = 10 →
      decode w = decode w')
      ∧ (w.toNat / 1024 = w'.toNat / 1024 → w.toNat / 4096 = 8 → decode w = decode w')

/-! ### The cycle -/

/-- 40_cycle.md R110: where a cycle runs and the word at PC decodes to `i`, the step is the fetch, then `exec i`, then the
boundary check (`endCycle`); a move of the agenda that only lets the machine run is used up. -/
def Obligations.StepRunsTheDecodedInstruction : Prop :=
  ∀ (s : State) (i : Instr), CycleRuns s → decode (s.cell s.pc.value) = .ok i →
    step s = endCycle (exec i (fetched { s with agenda := s.agenda.tail }))

/-- 30_encoding.md R96: a word with opcode 15 halts the machine with IllegalOpcode; by 40_cycle.md R110 and R113 (derived there) only the fetch
has happened before it, with the fetch latch and cursor of R112 (decision D16, log 19). The move of the agenda is used up (log 4). -/
def Obligations.OpcodeFifteenHaltsTheMachine : Prop :=
  ∀ s : State, CycleRuns s → 0xF000 ≤ (s.cell s.pc.value).toNat →
    step s = .next { s with
      mar := s.mar.holding s.pc.value
      ir := s.ir.holding (s.cell s.pc.value)
      fetchAddr := s.pc.value
      cursor := cursorAfter s s.pc.value
      fatal := some .illegalOpcode
      mstate := .haltedAbnormal
      agenda := s.agenda.tail }

/-- 40_cycle.md R115 (decision D4): every instruction checks PC + 1 after its operand fetch and before its execute phase; at 4095
it raises MaxProgramReached with PC still 4095. -/
def Obligations.EveryInstructionFaultsAtTheTop : Prop :=
  ∀ (i : Instr) (s : State), s.mstate = .running → s.pc.value = 4095#12 →
    exec i s = .next { decodedFor i s with fatal := some .maxProgramReached, mstate := .haltedAbnormal }

/-- 40_cycle.md R119 and 60_exceptions.md R215 (derived there): no cycle at 4095 completes, and IllegalOpcode comes before MaxProgramReached. That PC stays
4095 is decision D4 (40_cycle.md R115, log 19). -/
def Obligations.NoCycleCompletesAtTheTop : Prop :=
  ∀ s : State, CycleRuns s → s.pc.value = 4095#12 →
    ∃ t, step s = .next t ∧ t.mstate = .haltedAbnormal ∧ t.pc = s.pc ∧ t.ac = s.ac
      ∧ (∀ a, t.mem.read a = s.mem.read a)
      ∧ t.fatal = some (if 0xF000 ≤ (s.cell 4095#12).toNat then .illegalOpcode else .maxProgramReached)

/-! ### Direct memory reference -/

/-- 41_memory_reference.md R131 (decision D8 for MAR and MBR): M[X] <- PC, AC <- X + 1, PC <- AC masked. -/
def Obligations.JnSSavesTheReturnAddress : Prop :=
  (∀ x : Addr12, decode (0x0#4 ++ x) = .ok (.jnS x)) ∧
  ∀ (x : Addr12) (s : State), s.mstate = .running → s.pc.value ≠ 4095#12 → s.mem.wf = true →
    ∃ m, exec (.jnS x) s = .next { s with
        mar := s.mar.holding x
        mbr := s.mbr.holding (s.cell x)
        ac := s.ac.holding (x.setWidth 16 + 1#16)
        pc := s.pc.holding (x + 1#12)
        mem := m }
      ∧ m.read x.toNat = (s.pc.value + 1#12).setWidth 16 ∧ ∀ a, a ≠ x.toNat → m.read a = s.mem.read a

/-- 41_memory_reference.md R132. -/
def Obligations.LoadReadsTheCell : Prop :=
  (∀ x : Addr12, decode (0x1#4 ++ x) = .ok (.load x)) ∧
  ∀ (x : Addr12) (s : State), s.mstate = .running → s.pc.value ≠ 4095#12 →
    exec (.load x) s = .next { s with
      mar := s.mar.holding x
      mbr := s.mbr.holding (s.cell x)
      ac := s.ac.holding (s.cell x)
      pc := s.pc.holding (s.pc.value + 1#12) }

/-- 41_memory_reference.md R133 (decision D8 for MBR): M[X] <- AC. -/
def Obligations.StoreWritesTheCell : Prop :=
  (∀ x : Addr12, decode (0x2#4 ++ x) = .ok (.store x)) ∧
  ∀ (x : Addr12) (s : State), s.mstate = .running → s.pc.value ≠ 4095#12 → s.mem.wf = true →
    ∃ m, exec (.store x) s = .next { s with
        mar := s.mar.holding x
        mbr := s.mbr.holding (s.cell x)
        pc := s.pc.holding (s.pc.value + 1#12)
        mem := m }
      ∧ m.read x.toNat = s.ac.value ∧ ∀ a, a ≠ x.toNat → m.read a = s.mem.read a

/-- 41_memory_reference.md R134: AC <- wrap16(sval(AC) + sval(M[X])), with no flag and no error. -/
def Obligations.AddWrapsTheSignedSum : Prop :=
  (∀ x : Addr12, decode (0x3#4 ++ x) = .ok (.add x)) ∧
  ∀ (x : Addr12) (s : State), s.mstate = .running → s.pc.value ≠ 4095#12 →
    exec (.add x) s = .next { s with
      mar := s.mar.holding x
      mbr := s.mbr.holding (s.cell x)
      ac := s.ac.holding (BitVec.ofInt 16 (s.ac.value.toInt + (s.cell x).toInt))
      pc := s.pc.holding (s.pc.value + 1#12) }

/-- 41_memory_reference.md R135: AC <- wrap16(sval(AC) - sval(M[X])), with no flag and no error. -/
def Obligations.SubtWrapsTheSignedDifference : Prop :=
  (∀ x : Addr12, decode (0x4#4 ++ x) = .ok (.subt x)) ∧
  ∀ (x : Addr12) (s : State), s.mstate = .running → s.pc.value ≠ 4095#12 →
    exec (.subt x) s = .next { s with
      mar := s.mar.holding x
      mbr := s.mbr.holding (s.cell x)
      ac := s.ac.holding (BitVec.ofInt 16 (s.ac.value.toInt - (s.cell x).toInt))
      pc := s.pc.holding (s.pc.value + 1#12) }

/-- 41_memory_reference.md R130: the signed results of Add and Subt have the same bits as the unsigned ones, modulo 2^16. -/
def Obligations.SignedAndUnsignedArithmeticAgree : Prop :=
  ∀ a b : Word16,
    (sum16 a b).toNat = (a.toNat + b.toNat) % 65536
      ∧ (difference16 a b).toNat = (65536 + a.toNat - b.toNat) % 65536

/-! ### Input, Output, Halt -/

/-- 42_io_and_halt.md R150: Input only suspends the machine, whatever its operand bits (30_encoding.md R93, decision D3, log 17); the
boundary check does nothing then, and a step without a host command leaves the machine suspended as it is (log 6). -/
def Obligations.InputSuspendsTheMachine : Prop :=
  (∀ x : Addr12, decode (0x5#4 ++ x) = .ok .input) ∧
  (∀ s : State, s.mstate = .running → s.pc.value ≠ 4095#12 →
    exec .input s = .next { s with pc := s.pc.holding (s.pc.value + 1#12), mstate := .blockedOnInput }) ∧
  ∀ s : State, s.mstate = .blockedOnInput →
    boundaryCheck s = s ∧ (nextCommand s = none → step s = .next { s with agenda := s.agenda.tail })

/-- 60_exceptions.md R229: `supply(v)` completes the Input through INPUT (42_io_and_halt.md R151, decision D9), with the breakpoint check
then (R236, decisions D16, D33, log 19), and leaves the controller mode, so that in SingleStep the machine then waits as it is (log 6) and
in the other modes cycles go on. -/
def Obligations.SupplyCompletesTheInput : Prop :=
  ∀ (s : State) (v : Word16) (rest : List HostMove), Gives s (.supply v) rest → s.mstate = .blockedOnInput →
    ∃ t, step s = .next t
      ∧ t = { answered s rest .accepted with
          input := s.input.holding v
          ac := s.ac.holding v
          mstate := if s.ctl = .runToBreakpoint ∧ onBreakpoint s = true then .paused else .running }
      ∧ (s.ctl = .singleStep → letRun t = .next t)
      ∧ (t.mstate = .running → s.ctl ≠ .singleStep → letRun t = cycle t)

/-- 42_io_and_halt.md R153: OUTPUT <- AC, and one record with OUTPUT's mode at the end of the stream; the operand bits are ignored
(30_encoding.md R93, decision D3, log 17). -/
def Obligations.OutputEmitsOneRecord : Prop :=
  (∀ x : Addr12, decode (0x6#4 ++ x) = .ok .output) ∧
  ∀ s : State, s.mstate = .running → s.pc.value ≠ 4095#12 →
    exec .output s = .next { s with
      output := s.output.holding s.ac.value
      outStream := s.outStream ++ [⟨s.ac.value, s.output.mode⟩]
      pc := s.pc.holding (s.pc.value + 1#12) }

/-- 42_io_and_halt.md R154: HaltedNormal, or HaltedAbnormal with the code kept when the fatal flag is set; no cycle runs afterwards
without a host command, and the machine is answered as it is (log 6). The operand bits are ignored (30_encoding.md R93, decision D3,
log 17); that the flag may be set here is decision D10. -/
def Obligations.HaltReadsTheFatalFlag : Prop :=
  (∀ x : Addr12, decode (0x7#4 ++ x) = .ok .halt) ∧
  ∀ s : State, s.mstate = .running → s.pc.value ≠ 4095#12 →
    ∃ t, exec .halt s = .next t
      ∧ t = { s with
          pc := s.pc.holding (s.pc.value + 1#12)
          mstate := if s.fatal = none then .haltedNormal else .haltedAbnormal }
      ∧ letRun t = .next t

/-! ### SkipCond, Jump, Clear -/

/-- 43_branch_and_clear.md R170 and R171 (decision D5), with the condition bits at IR[11:10] (log 9): the signed test of AC, the
masking skip, and the fatal error of condition 11 after the increment. -/
def Obligations.SkipCondTestsTheSignOfAC : Prop :=
  (∀ (cond : BitVec 2) (rest : BitVec 10), decode (0x8#4 ++ (cond ++ rest)) = .ok (.skipCond cond)) ∧
  ∀ (cond : BitVec 2) (s : State), s.mstate = .running → s.pc.value ≠ 4095#12 →
    (cond = 0b11#2 → exec (.skipCond cond) s = .next { s with
      pc := s.pc.holding (s.pc.value + 1#12)
      fatal := some .illegalConditionalOperand
      mstate := .haltedAbnormal }) ∧
    (cond ≠ 0b11#2 →
      ((cond = 0b00#2 ∧ s.ac.value.toInt < 0) ∨ (cond = 0b01#2 ∧ s.ac.value.toInt = 0)
        ∨ (cond = 0b10#2 ∧ 0 < s.ac.value.toInt)) →
      exec (.skipCond cond) s = .next { s with pc := s.pc.holding (s.pc.value + 2#12) }) ∧
    (cond ≠ 0b11#2 →
      ¬((cond = 0b00#2 ∧ s.ac.value.toInt < 0) ∨ (cond = 0b01#2 ∧ s.ac.value.toInt = 0)
        ∨ (cond = 0b10#2 ∧ 0 < s.ac.value.toInt)) →
      exec (.skipCond cond) s = .next { s with pc := s.pc.holding (s.pc.value + 1#12) })

/-- 43_branch_and_clear.md R172: PC <- X for every X; MAR and MBR stay. -/
def Obligations.JumpGoesToItsOperand : Prop :=
  (∀ x : Addr12, decode (0x9#4 ++ x) = .ok (.jump x)) ∧
  ∀ (x : Addr12) (s : State), s.mstate = .running → s.pc.value ≠ 4095#12 →
    exec (.jump x) s = .next { s with pc := s.pc.holding x }

/-- 43_branch_and_clear.md R173; the operand bits are ignored (30_encoding.md R93, decision D3, log 17). -/
def Obligations.ClearZeroesAC : Prop :=
  (∀ x : Addr12, decode (0xA#4 ++ x) = .ok .clear) ∧
  ∀ s : State, s.mstate = .running → s.pc.value ≠ 4095#12 →
    exec .clear s = .next { s with ac := s.ac.holding 0#16, pc := s.pc.holding (s.pc.value + 1#12) }

/-! ### Indirect -/

/-- 44_indirect.md R191 with the pointer step R190 (decision D6: the pointer is masked and never faults). -/
def Obligations.AddIAddsThroughAPointer : Prop :=
  (∀ x : Addr12, decode (0xB#4 ++ x) = .ok (.addI x)) ∧
  ∀ (x : Addr12) (s : State), s.mstate = .running → s.pc.value ≠ 4095#12 →
    let p : Addr12 := (s.cell x).setWidth 12
    exec (.addI x) s = .next { s with
      mar := s.mar.holding p
      mbr := s.mbr.holding (s.cell p)
      ac := s.ac.holding (BitVec.ofInt 16 (s.ac.value.toInt + (s.cell p).toInt))
      pc := s.pc.holding (s.pc.value + 1#12) }

/-- 44_indirect.md R192: PC <- M[X] masked; MAR keeps X, MBR the pointer. -/
def Obligations.JumpIGoesThroughAPointer : Prop :=
  (∀ x : Addr12, decode (0xC#4 ++ x) = .ok (.jumpI x)) ∧
  ∀ (x : Addr12) (s : State), s.mstate = .running → s.pc.value ≠ 4095#12 →
    exec (.jumpI x) s = .next { s with
      mar := s.mar.holding x
      mbr := s.mbr.holding (s.cell x)
      pc := s.pc.holding (BitVec.ofNat 12 ((s.cell x).toNat % 4096)) }

/-- 44_indirect.md R193 with the pointer step R190 (decision D6). -/
def Obligations.LoadIReadsThroughAPointer : Prop :=
  (∀ x : Addr12, decode (0xD#4 ++ x) = .ok (.loadI x)) ∧
  ∀ (x : Addr12) (s : State), s.mstate = .running → s.pc.value ≠ 4095#12 →
    let p : Addr12 := (s.cell x).setWidth 12
    exec (.loadI x) s = .next { s with
      mar := s.mar.holding p
      mbr := s.mbr.holding (s.cell p)
      ac := s.ac.holding (s.cell p)
      pc := s.pc.holding (s.pc.value + 1#12) }

/-- 44_indirect.md R194 (decisions D6, D8; the double-indirection reading of 93_implementation_defined.md I1, log 20): with the second pointer q in
0..4095, AC is stored at q and at no other cell; MAR is not set to q. -/
def Obligations.StoreIStoresThroughTwoPointers : Prop :=
  (∀ x : Addr12, decode (0xE#4 ++ x) = .ok (.storeI x)) ∧
  ∀ (x : Addr12) (s : State), s.mstate = .running → s.pc.value ≠ 4095#12 → s.mem.wf = true →
    let p : Addr12 := (s.cell x).setWidth 12
    (s.cell p).toNat ≤ 4095 →
    ∃ m, exec (.storeI x) s = .next { s with
        mar := s.mar.holding p
        mbr := s.mbr.holding (s.cell p)
        pc := s.pc.holding (s.pc.value + 1#12)
        mem := m }
      ∧ m.read (s.cell p).toNat = s.ac.value ∧ ∀ a, a ≠ (s.cell p).toNat → m.read a = s.mem.read a

/-- 44_indirect.md R195 (decision D7), after the double indirection of R194 (93_implementation_defined.md I1, log 20) and the masked pointer of
R190 (decision D6): with the second pointer outside 0..4095 the store raises AddressOutOfRange, after MAR and MBR were
written and with memory unchanged. -/
def Obligations.StoreIOutOfRangeIsFatal : Prop :=
  ∀ (x : Addr12) (s : State), s.mstate = .running → s.pc.value ≠ 4095#12 →
    let p : Addr12 := (s.cell x).setWidth 12
    ((s.cell p).toInt < 0 ∨ 4095 < (s.cell p).toInt) →
    exec (.storeI x) s = .next { s with
      mar := s.mar.holding p
      mbr := s.mbr.holding (s.cell p)
      pc := s.pc.holding (s.pc.value + 1#12)
      fatal := some .addressOutOfRange
      mstate := .haltedAbnormal }

/-! ### Frames -/

/-- The instructions that store nothing leave every cell as it was (20_memory.md R64; 40_cycle.md R117, decision D8), the ones that halt, suspend or fault
among them. -/
def Obligations.FormsThatStoreNothingKeepMemory : Prop :=
  ∀ (i : Instr) (s t : State), storeAddress i s = none → exec i s = .next t → ∀ a, t.mem.read a = s.mem.read a

/-- JnS, Store and StoreI change no cell but the one whose address the instruction computes, and none at all
where that address is out of range (20_memory.md R64; 40_cycle.md R117, decision D8; StoreI: 44_indirect.md R194, log 20, and R195, decision
D7). -/
def Obligations.StoringFormsChangeOneCell : Prop :=
  ∀ (i : Instr) (s t : State) (q : Int), storeAddress i s = some q → exec i s = .next t →
    (∀ a : Nat, (a : Int) ≠ q → t.mem.read a = s.mem.read a)
      ∧ (q < 0 ∨ 4095 < q → ∀ a, t.mem.read a = s.mem.read a)

/-- 40_cycle.md R117 (decision D8): what no instruction, or only the named ones, may write. IR, INPUT, display modes, the controller
state: none. OUTPUT and the stream: Output. AC: the seven of 10_state.md R25. MAR and MBR: the operand fetch, and the
pointer step of AddI, LoadI, StoreI. MachineState and the fatal flag: Input, Halt and fatal errors. -/
def Obligations.InstructionsKeepTheOtherRegisters : Prop :=
  ∀ (i : Instr) (s t : State), exec i s = .next t →
    t.ir = s.ir ∧ t.input = s.input ∧ SameModes s t ∧ SameController s t
      ∧ (i ≠ .output → t.output = s.output ∧ t.outStream = s.outStream)
      ∧ (writesAC i = false → t.ac = s.ac)
      ∧ (operandOf i = none → t.mar = s.mar ∧ t.mbr = s.mbr)
      ∧ (followsPointer i = false → ∀ x, operandOf i = some x → t.mar.value = x ∧ t.mbr.value = s.cell x)
      ∧ (s.pc.value ≠ 4095#12 → mayRaise i = false →
          t.fatal = s.fatal ∧ (writesMState i = false → t.mstate = s.mstate))

/-! ### The whole machine -/

/-- Every step keeps the invariant of Safety.lean, from every state that meets it. -/
def Obligations.StepKeepsTheInvariant : Prop := ∀ s t : State, Inv s → step s = .next t → Inv t

/-- The machine after reset meets it. -/
def Obligations.ResetMeetsTheInvariant : Prop := Inv State.reset

/-- No step stops: every state has a next state (no trap, no refusal; fatal errors are states, 60_exceptions.md R213), and MachineState changes
only by a row of the transition table (60_exceptions.md R222, its rows marked D being the spec's own). That a machine that waits has a next state at all is log 6. -/
def Obligations.StateMachineFollowsTheTable : Prop :=
  ∀ s : State, ∃ t, step s = .next t ∧ TransitionRow (nextCommand s) s.ctl s.mstate t.mstate

/-- 10_state.md R32: unless the next command parses a text in a display mode, two states that differ in display modes and output tags
only step to states that differ in those only; and outside Uninitialized only set_mode writes a mode. -/
def Obligations.DisplayModesNeverAffectExecution : Prop :=
  (∀ s s' : State, withoutModes s = withoutModes s' → readsMode (nextCommand s) = false →
    resultWithoutModes (step s) = resultWithoutModes (step s')) ∧
  ∀ s t : State, step s = .next t → s.mstate ≠ .uninitialized → (∀ r m, nextCommand s ≠ some (.setMode r m)) →
    SameModes s t

/-- 70_reset_and_hazards.md R262 (derived there) and 60_exceptions.md R217 (decision D10): the fatal flag, once set, is cleared by
reset and load only. -/
def Obligations.OnlyResetClearsTheFatalFlag : Prop :=
  ∀ s t : State, step s = .next t → s.fatal ≠ none → t.fatal = none →
    nextCommand s = some .reset ∨ ∃ image, nextCommand s = some (.load image)

/-- 20_memory.md R64 and 10_state.md R36 (decision D37): a cell changes only by reset, by load, or by a cycle of JnS, Store or StoreI that
stores at it. -/
def Obligations.OnlyStoresAndLoadsWriteMemory : Prop :=
  ∀ (s t : State) (a : Nat), step s = .next t → t.mem.read a ≠ s.mem.read a →
    nextCommand s = some .reset ∨ (∃ image, nextCommand s = some (.load image))
      ∨ ((nextCommand s = none ∨ nextCommand s = some .step)
          ∧ ∃ i, decode (s.cell s.pc.value) = .ok i ∧ storeAddress i (fetched s) = some (a : Int))

/-- 10_state.md R39 and 60_exceptions.md R239: but for reset and load, the stream keeps its records and gains at most one, by an Output that ran in
this step. -/
def Obligations.OutputStreamOnlyGrows : Prop :=
  ∀ s t : State, step s = .next t → nextCommand s ≠ some .reset → (∀ image, nextCommand s ≠ some (.load image)) →
    t.outStream = s.outStream
      ∨ (t.outStream = s.outStream ++ [⟨s.ac.value, s.output.mode⟩] ∧ decode (s.cell s.pc.value) = .ok .output
          ∧ (nextCommand s = none ∨ nextCommand s = some .step))

/-- 10_state.md R26 and R30 (decision D9): IR changes only by the fetch of a cycle and INPUT only by supply, and both by
host register writes, reset and load. -/
def Obligations.WritersOfIRAndINPUT : Prop :=
  ∀ s t : State, step s = .next t →
    (t.ir.value ≠ s.ir.value →
      ((nextCommand s = none ∨ nextCommand s = some .step) ∧ t.ir.value = s.cell s.pc.value)
        ∨ (∃ v, nextCommand s = some (.writeData .ir v)) ∨ (∃ x, nextCommand s = some (.writeRegText (.data .ir) x))
        ∨ nextCommand s = some .reset ∨ ∃ image, nextCommand s = some (.load image)) ∧
    (t.input.value ≠ s.input.value →
      (∃ v, nextCommand s = some (.supply v) ∧ t.input.value = v ∧ t.ac.value = v)
        ∨ (∃ v, nextCommand s = some (.writeData .input v))
        ∨ (∃ x, nextCommand s = some (.writeRegText (.data .input) x))
        ∨ nextCommand s = some .reset ∨ ∃ image, nextCommand s = some (.load image))

/-- 40_cycle.md R110, 60_exceptions.md R221 and R235: without a host command, nothing happens in a machine that is not Running or is Running in
SingleStep (what a step answers there is log 6). -/
def Obligations.NoCycleRunsOutsideRunning : Prop :=
  ∀ s : State, nextCommand s = none → (s.mstate ≠ .running ∨ s.ctl = .singleStep) →
    step s = .next { s with agenda := s.agenda.tail }

/-! ### Host commands -/

/-- 60_exceptions.md R224 (decision D14): a command its row of R223 does not accept changes nothing and the host is told (how: logs 4, 5). The
rows are `AcceptedIn`, and the model accepts exactly by them; run and step are not accepted in NoProgramLoaded, HaltedByUser,
BlockedOnInput, Uninitialized, or in Running with ctl other than SingleStep, pause only in Running, stop only in Running, Paused and
BlockedOnInput, supply and input_invalid only in BlockedOnInput. -/
def Obligations.RefusedCommandsChangeNothing : Prop :=
  (∀ (c : Command) (s : State), accepts c s = true ↔ AcceptedIn c s) ∧
  (∀ (s : State) (c : Command) (rest : List HostMove), Gives s c rest → ¬AcceptedIn c s →
    step s = .next (answered s rest .refused)) ∧
  (∀ (s : State) (c : Command) (rest : List HostMove), Gives s c rest → (c = .step ∨ ∃ m, c = .run m) →
    (s.mstate = .noProgramLoaded ∨ s.mstate = .haltedByUser ∨ s.mstate = .blockedOnInput ∨ s.mstate = .uninitialized
      ∨ (s.mstate = .running ∧ s.ctl ≠ .singleStep)) →
    step s = .next (answered s rest .refused)) ∧
  ∀ (s : State) (c : Command) (rest : List HostMove), Gives s c rest →
    ((c = .pause ∧ s.mstate ≠ .running)
      ∨ (c = .stop ∧ s.mstate ≠ .running ∧ s.mstate ≠ .paused ∧ s.mstate ≠ .blockedOnInput)
      ∨ ((c = .inputInvalid ∨ ∃ v, c = .supply v) ∧ s.mstate ≠ .blockedOnInput)) →
    step s = .next (answered s rest .refused)

/-- 70_reset_and_hazards.md R260 and R261 (decisions D10, D19, D20, D21, D38, D39): from every state, reset gives the state after reset; display
modes stay, or are P_MODE0 where the machine was unconstructed. The model's own fields are the host's side and a counter
(logs 4, 5, 7). -/
def Obligations.ResetGivesTheResetState : Prop :=
  ∀ (s : State) (rest : List HostMove), Gives s .reset rest →
    (s.mstate = .uninitialized → step s = .next { State.reset with
      agenda := rest, replies := s.replies ++ [.accepted], draws := s.draws }) ∧
    (s.mstate ≠ .uninitialized → step s = .next { State.reset with
      ac := ⟨0#16, s.ac.mode⟩, ir := ⟨0#16, s.ir.mode⟩, mbr := ⟨0#16, s.mbr.mode⟩, input := ⟨0#16, s.input.mode⟩
      output := ⟨0#16, s.output.mode⟩, mar := ⟨0#12, s.mar.mode⟩, pc := ⟨0#12, s.pc.mode⟩
      agenda := rest, replies := s.replies ++ [.accepted], draws := s.draws })

/-- 70_reset_and_hazards.md R263, R265, R266 (decisions D23, D25, D30), R267 (decision D22) and R268 (decision D31): accepted are exactly the images
of 1 to 4096 addressed records that are all well formed, with the address, the word and the line of each, in order (logs 10, 11, 12).
After an accepted load each cell holds the word of the last record at it, else 0; each
loaded address has that record's line with the flag clear; PC is the first record's address; the rest is as after reset. -/
def Obligations.AcceptedLoadPlacesTheProgram : Prop :=
  (∀ (rs : List ImageRecord) (loaded : List LoadedRecord), judgeImage (.records rs) = .ok loaded ↔
    1 ≤ loaded.length ∧ loaded.length ≤ 4096 ∧ List.Forall₂ RecordOf (addressedRecords rs) loaded) ∧
  ∀ (s : State) (image : Image) (r : LoadedRecord) (rs : List LoadedRecord) (rest : List HostMove),
    Gives s (.load image) rest → s.mstate ≠ .uninitialized → judgeImage image = .ok (r :: rs) →
    ∃ t, step s = .next t ∧ t.mstate = .haltedNormal ∧ t.pc.value = r.addr
      ∧ (∀ a, t.mem.read a = match lastAt (r :: rs) a with | some q => q.word | none => 0#16)
      ∧ (∀ a, indexFind t.addrIndex a
          = match lastAt (r :: rs) a with | some q => some ⟨a, q.line, false⟩ | none => none)
      ∧ t.ac.value = 0#16 ∧ t.ir.value = 0#16 ∧ t.mbr.value = 0#16 ∧ t.input.value = 0#16
      ∧ t.output.value = 0#16 ∧ t.mar.value = 0#12 ∧ t.fatal = none ∧ t.fetchAddr = 0#12 ∧ t.cursor = none
      ∧ t.outStream = [] ∧ t.ctl = .singleStep ∧ SameModes s t
      ∧ t.replies = s.replies ++ [.accepted] ∧ t.agenda = rest

/-- 70_reset_and_hazards.md R266 (decisions D23, D25, D30) and R269: the grounds of a rejection with their codes (where the image is too long and
malformed the code is log 8's free value, and nothing is said of it), which records are addressed (logs 10, 12) and which of them are
malformed (R265; hex digits: log 11); the machine is left in NoProgramLoaded with registers
0, no program and no fatal flag. Memory is left open. -/
def Obligations.RejectedLoadLeavesNoProgram : Prop :=
  (∀ rs, addressedFrom 0 rs = addressedRecords rs) ∧
  (∀ p r, parseRecord p = some r ↔ RecordOf p r) ∧
  (∀ p, parseRecord p = none ↔ ¬((∃ a, HexField 3 p.2.address a) ∧ ∃ w, HexField 4 p.2.word w)) ∧
  judgeImage .unreadable = .error .invalidProgramImage ∧
  (∀ rs, addressedFrom 0 rs = [] → judgeImage (.records rs) = .error .invalidProgramImage) ∧
  (∀ rs, (∃ p ∈ addressedFrom 0 rs, parseRecord p = none) → (addressedFrom 0 rs).length ≤ 4096 →
    judgeImage (.records rs) = .error .invalidProgramImage) ∧
  (∀ rs, (∀ p ∈ addressedFrom 0 rs, parseRecord p ≠ none) → 4096 < (addressedFrom 0 rs).length →
    judgeImage (.records rs) = .error .maxProgramReached) ∧
  ∀ (s : State) (image : Image) (code : ErrorCode) (rest : List HostMove),
    Gives s (.load image) rest → s.mstate ≠ .uninitialized → judgeImage image = .error code →
    ∃ t, step s = .next t ∧ t.mstate = .noProgramLoaded ∧ t.replies = s.replies ++ [.loadRejected code]
      ∧ t.ac.value = 0#16 ∧ t.ir.value = 0#16 ∧ t.mbr.value = 0#16 ∧ t.input.value = 0#16
      ∧ t.output.value = 0#16 ∧ t.mar.value = 0#12 ∧ t.pc.value = 0#12 ∧ t.fatal = none
      ∧ t.addrIndex = [] ∧ t.cursor = none ∧ t.outStream = [] ∧ t.ctl = .singleStep ∧ SameModes s t

/-- 10_state.md R23: `setValue` of MAR and PC stores any integer modulo 4096, never rejecting it. -/
def Obligations.AddressRegistersMaskEveryWrite : Prop :=
  ∀ (r : AddrRegister) (v : Int),
    ((r.setValue v).value.toNat : Int) = v % 4096 ∧ (r.setValue v).mode = r.mode
      ∧ 0 ≤ ((r.setValue v).value.toNat : Int) ∧ (r.setValue v).value.toNat ≤ 4095

/-- 60_exceptions.md R231 (decision D29): write_reg sets the one register, masked for MAR and PC, in every constructed state. -/
def Obligations.WriteRegSetsOneRegister : Prop :=
  ∀ (s : State) (rest : List HostMove), s.mstate ≠ .uninitialized →
    (∀ v, Gives s (.writeAddr .pc v) rest →
      step s = .next { answered s rest .accepted with pc := s.pc.holding (BitVec.ofInt 12 (v % 4096)) }) ∧
    (∀ v, Gives s (.writeAddr .mar v) rest →
      step s = .next { answered s rest .accepted with mar := s.mar.holding (BitVec.ofInt 12 (v % 4096)) }) ∧
    (∀ v, Gives s (.writeData .ac v) rest →
      step s = .next { answered s rest .accepted with ac := s.ac.holding v }) ∧
    (∀ v, Gives s (.writeData .ir v) rest →
      step s = .next { answered s rest .accepted with ir := s.ir.holding v }) ∧
    (∀ v, Gives s (.writeData .mbr v) rest →
      step s = .next { answered s rest .accepted with mbr := s.mbr.holding v }) ∧
    (∀ v, Gives s (.writeData .input v) rest →
      step s = .next { answered s rest .accepted with input := s.input.holding v }) ∧
    (∀ v, Gives s (.writeData .output v) rest →
      step s = .next { answered s rest .accepted with output := s.output.holding v })

/-- 60_exceptions.md R232 (decision D18): a text that parses in the register's mode is written as by write_reg, any other is InvalidLiteral and changes
nothing. A text parses exactly when it is a literal of the mode (`LiteralIn`), with the literal's value, for data registers in decimal
only within -32768..32767; the ranges of the three modes follow (digits: logs 11, 13). -/
def Obligations.RegisterTextIsParsedInItsMode : Prop :=
  (∀ (s : State) (d : DataReg) (text : Text) (rest : List HostMove),
    Gives s (.writeRegText (.data d) text) rest → s.mstate ≠ .uninitialized →
    (parseDataLiteral (modeOf (.data d) s) text = none → step s = .next (answered s rest .invalidLiteral)) ∧
    ∀ n, parseDataLiteral (modeOf (.data d) s) text = some n →
      step s = .next (writeData d (BitVec.ofInt 16 n) (answered s rest .accepted))) ∧
  (∀ (s : State) (a : AddrReg) (text : Text) (rest : List HostMove),
    Gives s (.writeRegText (.addr a) text) rest → s.mstate ≠ .uninitialized →
    (parseAddrLiteral (modeOf (.addr a) s) text = none → step s = .next (answered s rest .invalidLiteral)) ∧
    ∀ n, parseAddrLiteral (modeOf (.addr a) s) text = some n →
      step s = .next (writeAddr a n (answered s rest .accepted))) ∧
  (∀ m text n, parseAddrLiteral m text = some n ↔ LiteralIn m text n) ∧
  (∀ m text n, parseDataLiteral m text = some n ↔
    LiteralIn m text n ∧ (m = .decimal → -32768 ≤ n ∧ n ≤ 32767)) ∧
  (∀ m text, (∀ n, ¬LiteralIn m text n) → parseAddrLiteral m text = none ∧ parseDataLiteral m text = none) ∧
  (∀ text n, parseDataLiteral .hex text = some n →
    1 ≤ text.length ∧ text.length ≤ 4 ∧ 0 ≤ n ∧ n ≤ 0xFFFF) ∧
  (∀ text n, parseDataLiteral .decimal text = some n → -32768 ≤ n ∧ n ≤ 32767) ∧
  (∀ text n, parseDataLiteral .ascii text = some n ↔
    ∃ c rest, text = c :: rest ∧ c.toNat ≤ 127 ∧ n = (c.toNat : Int))

/-- 60_exceptions.md R233: set_mode writes the one mode and no value. -/
def Obligations.SetModeKeepsEveryValue : Prop :=
  ∀ (s : State) (r : Reg) (m : Mode) (rest : List HostMove), Gives s (.setMode r m) rest → s.mstate ≠ .uninitialized →
    ∃ t, step s = .next t ∧ modeOf r t = m ∧ (∀ r', r' ≠ r → modeOf r' t = modeOf r' s)
      ∧ withoutModes t = withoutModes (answered s rest .accepted) ∧ t.outStream = s.outStream

/-- 60_exceptions.md R234: set_breakpoint sets one flag of a loaded address and is refused elsewhere; clear_breakpoints clears all and a second one changes
nothing; neither changes any other state. -/
def Obligations.BreakpointCommandsSetFlagsOnly : Prop :=
  (∀ (s : State) (a : Addr12) (flag : Bool) (rest : List HostMove),
    Gives s (.setBreakpoint a flag) rest → s.mstate ≠ .uninitialized →
    (indexFind s.addrIndex a.toNat = none → step s = .next (answered s rest .refused)) ∧
    ∀ e, indexFind s.addrIndex a.toNat = some e →
      ∃ l, step s = .next { answered s rest .accepted with addrIndex := l }
        ∧ indexFind l a.toNat = some { e with breakpoint := flag }
        ∧ ∀ b, b ≠ a.toNat → indexFind l b = indexFind s.addrIndex b) ∧
  (∀ (s : State) (rest : List HostMove), Gives s .clearBreakpoints rest → s.mstate ≠ .uninitialized →
    ∃ l, step s = .next { answered s rest .accepted with addrIndex := l }
      ∧ ∀ b, indexFind l b = (indexFind s.addrIndex b).map fun e => { e with breakpoint := false }) ∧
  ∀ l, indexClear (indexClear l) = indexClear l

/-- 60_exceptions.md R236 (decisions D16, D33): in RunToBreakpoint the machine pauses after an instruction that stays Running and was fetched from a
flagged address, and only then. -/
def Obligations.BreakpointPausesAfterTheInstruction : Prop :=
  ∀ (s u : State) (i : Instr), CycleRuns s → decode (s.cell s.pc.value) = .ok i →
    exec i (fetched { s with agenda := s.agenda.tail }) = .next u →
    (s.ctl = .runToBreakpoint → u.mstate = .running →
      (∃ e, indexFind s.addrIndex s.pc.value.toNat = some e ∧ e.breakpoint = true) →
      step s = .next { u with mstate := .paused }) ∧
    (¬(s.ctl = .runToBreakpoint ∧ u.mstate = .running
        ∧ ∃ e, indexFind s.addrIndex s.pc.value.toNat = some e ∧ e.breakpoint = true) →
      step s = .next u)

/-- 60_exceptions.md R225 (decision D13) and R228 (decision D12): run continues at the current PC with the fatal flag as it was; stop halts by the user
and records no code. -/
def Obligations.RunAndStopTouchNoRegister : Prop :=
  (∀ (s : State) (m : RunMode) (rest : List HostMove), Gives s (.run m) rest → resumes s.ctl s.mstate →
    step s = .next { answered s rest .accepted with ctl := ctlOf m, mstate := .running }) ∧
  ∀ (s : State) (rest : List HostMove), Gives s .stop rest →
    (s.mstate = .running ∨ s.mstate = .paused ∨ s.mstate = .blockedOnInput) →
    step s = .next { answered s rest .accepted with mstate := .haltedByUser }

/-- 60_exceptions.md R227. -/
def Obligations.PauseChangesNoRegister : Prop :=
  ∀ (s : State) (rest : List HostMove), Gives s .pause rest → s.mstate = .running →
    step s = .next { answered s rest .accepted with mstate := .paused }

/-- 60_exceptions.md R230 (decision D17) and 42_io_and_halt.md R152 (decision D36): input_invalid raises InvalidRegisterValue; AC and INPUT keep their values. -/
def Obligations.InputInvalidAbandonsTheInput : Prop :=
  ∀ (s : State) (rest : List HostMove), Gives s .inputInvalid rest → s.mstate = .blockedOnInput →
    step s = .next { answered s rest .accepted with fatal := some .invalidRegisterValue, mstate := .haltedAbnormal }

/-- 60_exceptions.md R226 (decision D32): the step command runs exactly one cycle, in SingleStep, from every state that accepts it: of the
decoded instruction, or of a word of opcode 15, which halts the machine after its fetch (30_encoding.md R96, 40_cycle.md R113). -/
def Obligations.StepCommandRunsOneCycle : Prop :=
  (∀ (s : State) (i : Instr) (rest : List HostMove), Gives s .step rest → resumes s.ctl s.mstate →
    decode (s.cell s.pc.value) = .ok i →
    step s = endCycle (exec i (fetched { answered s rest .accepted with ctl := .singleStep, mstate := .running }))) ∧
  ∀ (s : State) (rest : List HostMove), Gives s .step rest → resumes s.ctl s.mstate →
    0xF000 ≤ (s.cell s.pc.value).toNat →
    step s = .next { answered s rest .accepted with
      ctl := .singleStep
      mar := s.mar.holding s.pc.value
      ir := s.ir.holding (s.cell s.pc.value)
      fetchAddr := s.pc.value
      cursor := cursorAfter s s.pc.value
      fatal := some .illegalOpcode
      mstate := .haltedAbnormal }

/-! ### Rules over several instructions -/

/-- 44_indirect.md R196 (derived there): JnS S and a later JumpI S, with M[S] not written between, return to the instruction after the JnS. -/
def Obligations.JumpIReturnsFromJnS : Prop :=
  ∀ (slot : Addr12) (s t u : State), s.mstate = .running → s.pc.value ≠ 4095#12 → s.mem.wf = true →
    exec (.jnS slot) s = .next t →
    u.mstate = .running → u.pc.value ≠ 4095#12 → u.cell slot = t.cell slot →
    ∃ v, exec (.jumpI slot) u = .next v ∧ v.pc.value = s.pc.value + 1#12 ∧ v.mstate = .running

/-- 20_memory.md R78 (derived there): the word an instruction stores is the word a later fetch from that address reads, the very next one
included; nothing but the memory needs to be as the instruction left it. -/
def Obligations.LaterFetchesSeeTheStore : Prop :=
  ∀ (i : Instr) (s t u : State) (q : Int), s.mstate = .running → s.pc.value ≠ 4095#12 → s.mem.wf = true →
    storeAddress i s = some q → exec i s = .next t → u.mem = t.mem → (u.pc.value.toNat : Int) = q →
    (fetched u).ir.value = match i with
      | .jnS _ => (s.pc.value + 1#12).setWidth 16
      | _ => s.ac.value

/-- 20_memory.md R63: MemRead after MemWrite gives the word written, and every other cell as it was, for all addresses 0..4095; a cell
never written since reset reads 0. -/
def Obligations.ReadReturnsTheLastWrite : Prop :=
  (∀ (a : Int) (v : Word16) (s : State) (k : Word16 → Result), 0 ≤ a → a ≤ 4095 → s.mem.wf = true →
    memWrite a v s (fun t => memRead a t k) = k v) ∧
  (∀ (a b : Int) (v : Word16) (s : State) (k : Word16 → Result), 0 ≤ a → a ≤ 4095 → 0 ≤ b → b ≤ 4095 → a ≠ b →
    memWrite a v s (fun t => memRead b t k) = memRead b s k) ∧
  ∀ a, State.reset.mem.read a = 0#16

/-- 20_memory.md R61 and R62: inside 0..4095 an access reaches its cell; outside, for any integer, it raises AddressOutOfRange
and reads or writes nothing. -/
def Obligations.MemoryAccessChecksItsRange : Prop :=
  ∀ (a : Int) (s : State),
    (∀ k : Word16 → Result,
      (0 ≤ a → a ≤ 4095 → memRead a s k = k (s.mem.read a.toNat)) ∧
      (a < 0 ∨ 4095 < a →
        memRead a s k = .next { s with fatal := some .addressOutOfRange, mstate := .haltedAbnormal })) ∧
    ∀ (v : Word16) (k : State → Result),
      (0 ≤ a → a ≤ 4095 → s.mem.wf = true → ∃ m : Memory, memWrite a v s k = k { s with mem := m }
        ∧ m.read a.toNat = v ∧ ∀ b, b ≠ a.toNat → m.read b = s.mem.read b) ∧
      (a < 0 ∨ 4095 < a →
        memWrite a v s k = .next { s with fatal := some .addressOutOfRange, mstate := .haltedAbnormal })

/-- Log 2: two canonical memories with the same content are the same data. -/
def Obligations.MemoriesWithEqualCellsAreEqual : Prop :=
  ∀ m n : Memory, m.wf = true → n.wf = true → (∀ a, m.read a = n.read a) → m = n

/-- 10_state.md R43 (decision D28; log 3): in Uninitialized every read is refused and only reset is accepted. 60_exceptions.md R243: in every other
state the host reads the block as it is. -/
def Obligations.NothingIsReadBeforeConstruction : Prop :=
  (∀ s : State, s.mstate ≠ .uninitialized → observe s = some
    { ac := s.ac, ir := s.ir, mbr := s.mbr, input := s.input, output := s.output, mar := s.mar, pc := s.pc
      mem := s.mem, mstate := s.mstate, fatal := s.fatal, outStream := s.outStream, addrIndex := s.addrIndex
      cursor := s.cursor }) ∧
  ∀ s : State, s.mstate = .uninitialized →
    observe s = none ∧ (∀ i, exec i s = .refused .uninitialized)
      ∧ ∀ (c : Command) (rest : List HostMove), Gives s c rest → c ≠ .reset →
          step s = .next (answered s rest .refused)

/-- 70_reset_and_hazards.md R270 and R271 (derived there): from reset, load and then run bring the machine to its first instruction, the one at the
first record's address, whose cycle is the third step (the agenda: logs 4, 15). -/
def Obligations.LoadThenRunReachesTheFirstRecord : Prop :=
  ∀ (image : Image) (r : LoadedRecord) (rs : List LoadedRecord) (m : RunMode) (i : Instr),
    judgeImage image = .ok (r :: rs) →
    (∀ q, lastAt (r :: rs) r.addr.toNat = some q → decode q.word = .ok i) →
    ∃ t u, step { State.reset with agenda := [.command (.load image), .command (.run m)] } = .next t
      ∧ step t = .next u ∧ u.mstate = .running ∧ u.pc.value = r.addr ∧ u.agenda = []
      ∧ step u = endCycle (exec i (fetched u))
end

