-- ==== Sys2Proof/Laws/Decode.lean ====
section
/-! SUPPORT. The fields of a word written from its fields. -/

namespace Sys2Proof

@[simp] theorem opcodeField_wordOf (opcode : BitVec 4) (operand : Addr12) :
    opcodeField (wordOf opcode operand) = opcode := by
  apply BitVec.eq_of_toNat_eq
  have h1 := opcode.isLt
  have h2 := operand.isLt
  simp only [opcodeField, wordOf, BitVec.extractLsb'_toNat, BitVec.toNat_append, Nat.shiftRight_eq_div_pow]
  rw [← Nat.shiftLeft_add_eq_or_of_lt h2, Nat.shiftLeft_eq]
  omega

@[simp] theorem operandField_wordOf (opcode : BitVec 4) (operand : Addr12) :
    operandField (wordOf opcode operand) = operand := by
  apply BitVec.eq_of_toNat_eq
  have h1 := opcode.isLt
  have h2 := operand.isLt
  simp only [operandField, wordOf, BitVec.extractLsb'_toNat, BitVec.toNat_append, Nat.shiftRight_eq_div_pow]
  rw [← Nat.shiftLeft_add_eq_or_of_lt h2, Nat.shiftLeft_eq]
  omega

/-- The condition bits are the top two bits of the operand field. -/
theorem condField_eq (w : Word16) : condField w = (operandField w).extractLsb' 10 2 := by
  apply BitVec.eq_of_toNat_eq
  simp only [condField, operandField, BitVec.extractLsb'_toNat, Nat.shiftRight_eq_div_pow]
  omega

@[simp] theorem condField_wordOf (opcode : BitVec 4) (cond : BitVec 2) (rest : BitVec 10) :
    condField (wordOf opcode (cond ++ rest)) = cond := by
  rw [condField_eq, operandField_wordOf]
  apply BitVec.eq_of_toNat_eq
  have h2 := cond.isLt
  have h3 := rest.isLt
  simp only [BitVec.extractLsb'_toNat, BitVec.toNat_append, Nat.shiftRight_eq_div_pow]
  rw [← Nat.shiftLeft_add_eq_or_of_lt h3, Nat.shiftLeft_eq]
  omega

/-- A word is its opcode field and its operand field. -/
theorem wordOf_fields (w : Word16) : wordOf (opcodeField w) (operandField w) = w := by
  apply BitVec.eq_of_toNat_eq
  have h := w.isLt
  have h2 := (operandField w).isLt
  simp only [wordOf, BitVec.toNat_append]
  rw [← Nat.shiftLeft_add_eq_or_of_lt h2, Nat.shiftLeft_eq]
  simp only [opcodeField, operandField, BitVec.extractLsb'_toNat, Nat.shiftRight_eq_div_pow]
  omega

end Sys2Proof
end

