-- ==== Sys2Proof/Laws/Memory.lean ====
section
/-! SUPPORT. Reading after writing, and that every memory and AddressIndex operation keeps the canonical form. -/

namespace Sys2Proof.Machine

/-! ### Memory -/

@[simp] theorem Memory.read_nil (a : Nat) : Memory.read [] a = 0#16 := rfl

theorem Memory.read_cell_append (a c : Nat) (v : Word16) (m : Memory) :
    Memory.read (Memory.cell a v ++ m) c = if c = a ∧ v ≠ 0#16 then v else Memory.read m c := by
  unfold Memory.cell
  by_cases hv : v = 0#16 <;> by_cases hc : c = a <;> simp [hv, hc, Memory.read]

/-- A write leaves every other cell alone. -/
theorem Memory.read_write_other (m : Memory) {a c : Nat} (v : Word16) (h : c ≠ a) :
    (m.write a v).read c = m.read c := by
  induction m with
  | nil => simpa [Memory.write, h] using Memory.read_cell_append a c v []
  | cons p m ih =>
    obtain ⟨b, w⟩ := p
    simp only [Memory.write]
    split
    · simp [Memory.read_cell_append, h]
    · split
      · rename_i hab
        subst hab
        simp [Memory.read_cell_append, Memory.read, h]
      · simp [Memory.read, ih]

/-- Below the first listed cell memory reads 0. -/
theorem Memory.read_below {m : Memory} {lo a : Nat} (h : m.wfFrom lo = true) (ha : a < lo) : m.read a = 0#16 := by
  induction m generalizing lo with
  | nil => rfl
  | cons p m ih =>
    obtain ⟨b, w⟩ := p
    simp only [Memory.wfFrom, Bool.and_eq_true, decide_eq_true_eq] at h
    have hab : a ≠ b := by omega
    simp only [Memory.read, if_neg hab]
    exact ih h.2 (by omega)

theorem Memory.read_write_same_from {m : Memory} {lo : Nat} (a : Nat) (v : Word16) (h : m.wfFrom lo = true) :
    (m.write a v).read a = v := by
  induction m generalizing lo with
  | nil =>
    have := Memory.read_cell_append a a v []
    by_cases hv : v = 0#16 <;> simp_all [Memory.write]
  | cons p m ih =>
    obtain ⟨b, w⟩ := p
    have hm := h
    simp only [Memory.wfFrom, Bool.and_eq_true, decide_eq_true_eq] at h
    simp only [Memory.write]
    split
    · rename_i hab
      have hne : a ≠ b := by omega
      have : Memory.read m a = 0#16 := Memory.read_below h.2 (by omega)
      rw [Memory.read_cell_append]
      by_cases hv : v = 0#16 <;> simp [hv, Memory.read, hne, this]
    · split
      · rename_i hab
        have : Memory.read m a = 0#16 := Memory.read_below h.2 (by omega)
        rw [Memory.read_cell_append]
        by_cases hv : v = 0#16 <;> simp [hv, this]
      · rename_i _ hne
        simp only [Memory.read, if_neg hne]
        exact ih h.2

/-- A read after a write to the same cell gives the word written (20_memory.md R63). -/
theorem Memory.read_write_same {m : Memory} (a : Nat) (v : Word16) (h : m.wf = true) :
    (m.write a v).read a = v := Memory.read_write_same_from a v h

theorem Memory.wfFrom_mono {m : Memory} {lo hi : Nat} (h : m.wfFrom hi = true) (hle : lo ≤ hi) :
    m.wfFrom lo = true := by
  cases m with
  | nil => rfl
  | cons p m =>
    simp only [Memory.wfFrom, Bool.and_eq_true, decide_eq_true_eq] at h ⊢
    exact ⟨⟨by omega, h.1.2⟩, h.2⟩

theorem Memory.wfFrom_cell_append {m : Memory} {lo a : Nat} (v : Word16) (hlo : lo ≤ a)
    (ha : a < Config.memorySize) (h : m.wfFrom (a + 1) = true) : (Memory.cell a v ++ m).wfFrom lo = true := by
  unfold Memory.cell
  by_cases hv : v = 0#16
  · simpa [hv] using Memory.wfFrom_mono h (by omega)
  · simp [hv, Memory.wfFrom, h, hlo, ha]

theorem Memory.wfFrom_write {m : Memory} {lo a : Nat} (v : Word16) (h : m.wfFrom lo = true) (hlo : lo ≤ a)
    (ha : a < Config.memorySize) : (m.write a v).wfFrom lo = true := by
  induction m generalizing lo with
  | nil => simpa [Memory.write] using Memory.wfFrom_cell_append (m := []) v hlo ha rfl
  | cons p m ih =>
    obtain ⟨b, w⟩ := p
    have hm := h
    simp only [Memory.wfFrom, Bool.and_eq_true, decide_eq_true_eq] at h
    simp only [Memory.write]
    split
    · refine Memory.wfFrom_cell_append v hlo ha ?_
      simp only [Memory.wfFrom, Bool.and_eq_true, decide_eq_true_eq]
      exact ⟨⟨by omega, h.1.2⟩, h.2⟩
    · split
      · rename_i hab
        subst hab
        exact Memory.wfFrom_cell_append v hlo ha h.2
      · simp only [Memory.wfFrom, Bool.and_eq_true, decide_eq_true_eq]
        exact ⟨h.1, ih h.2 (by omega)⟩

/-- A write in the address space keeps the canonical form. -/
theorem Memory.wf_write {m : Memory} {a : Nat} (v : Word16) (h : m.wf = true) (ha : a < Config.memorySize) :
    (m.write a v).wf = true := Memory.wfFrom_write v h (Nat.zero_le a) ha

theorem Memory.wf_nil : Memory.wf [] = true := rfl

theorem Memory.wfFrom_filter_map (f : Nat → Word16) (n lo : Nat) (h : lo + n ≤ Config.memorySize) :
    Memory.wfFrom lo (((List.range' lo n).map fun a => (a, f a)).filter fun c => c.2 != 0#16) = true := by
  induction n generalizing lo with
  | zero => rfl
  | succ n ih =>
    have hrest := ih (lo + 1) (by omega)
    rw [List.range'_succ, List.map_cons, List.filter_cons]
    split
    · rename_i hne
      simp only [Memory.wfFrom, Bool.and_eq_true, decide_eq_true_eq]
      exact ⟨⟨Nat.le_refl lo, by omega, by simpa using hne⟩, hrest⟩
    · exact Memory.wfFrom_mono hrest (by omega)

/-- Memory taken from a function is canonical. -/
theorem Memory.wf_tabulate (f : Nat → Word16) : (Memory.tabulate f Config.memorySize).wf = true := by
  unfold Memory.wf Memory.tabulate
  rw [List.range_eq_range']
  exact Memory.wfFrom_filter_map f Config.memorySize 0 (by simp)

/-! ### The AddressIndex -/

theorem indexWfFrom_mono {l : List IndexEntry} {lo hi : Nat} (h : indexWfFrom hi l = true) (hle : lo ≤ hi) :
    indexWfFrom lo l = true := by
  cases l with
  | nil => rfl
  | cons e l =>
    simp only [indexWfFrom, Bool.and_eq_true, decide_eq_true_eq] at h ⊢
    exact ⟨by omega, h.2⟩

theorem indexWfFrom_put {l : List IndexEntry} {lo : Nat} {e : IndexEntry} (h : indexWfFrom lo l = true)
    (hlo : lo ≤ e.addr) (he : e.addr < Config.memorySize) : indexWfFrom lo (indexPut l e) = true := by
  induction l generalizing lo with
  | nil => simpa [indexPut, indexWfFrom] using ⟨hlo, he⟩
  | cons d l ih =>
    have hl := h
    simp only [indexWfFrom, Bool.and_eq_true, decide_eq_true_eq] at h
    simp only [indexPut]
    split
    · simp only [indexWfFrom, Bool.and_eq_true, decide_eq_true_eq]
      exact ⟨⟨hlo, he⟩, ⟨by omega, by omega⟩, h.2⟩
    · split
      · rename_i heq
        simp only [indexWfFrom, Bool.and_eq_true, decide_eq_true_eq]
        exact ⟨⟨hlo, he⟩, heq ▸ h.2⟩
      · simp only [indexWfFrom, Bool.and_eq_true, decide_eq_true_eq]
        exact ⟨h.1, ih h.2 (by omega)⟩

/-- Registering an entry keeps the canonical form. -/
theorem indexWf_put {l : List IndexEntry} {e : IndexEntry} (h : indexWf l = true)
    (he : e.addr < Config.memorySize) : indexWf (indexPut l e) = true :=
  indexWfFrom_put h (Nat.zero_le _) he

theorem indexWfFrom_map {l : List IndexEntry} {lo : Nat} (f : IndexEntry → IndexEntry)
    (hf : ∀ e, (f e).addr = e.addr) (h : indexWfFrom lo l = true) : indexWfFrom lo (l.map f) = true := by
  induction l generalizing lo with
  | nil => rfl
  | cons e l ih =>
    simp only [indexWfFrom, Bool.and_eq_true, decide_eq_true_eq] at h
    simp only [List.map_cons, indexWfFrom, Bool.and_eq_true, decide_eq_true_eq, hf]
    exact ⟨h.1, ih h.2⟩

theorem indexWf_flag {l : List IndexEntry} (a : Nat) (flag : Bool) (h : indexWf l = true) :
    indexWf (indexFlag l a flag) = true :=
  indexWfFrom_map _ (fun e => by split <;> rfl) h

theorem indexWf_clear {l : List IndexEntry} (h : indexWf l = true) : indexWf (indexClear l) = true :=
  indexWfFrom_map _ (fun _ => rfl) h

/-- An entry that is found is listed, at its address. -/
theorem indexFind_mem {l : List IndexEntry} {a : Nat} {e : IndexEntry} (h : indexFind l a = some e) :
    e ∈ l ∧ e.addr = a := by
  induction l with
  | nil => simp [indexFind] at h
  | cons d l ih =>
    simp only [indexFind] at h
    split at h
    · cases h
      exact ⟨List.mem_cons_self, by assumption⟩
    · exact ⟨List.mem_cons_of_mem _ (ih h).1, (ih h).2⟩

theorem indexPut_ne_nil (l : List IndexEntry) (e : IndexEntry) : indexPut l e ≠ [] := by
  cases l with
  | nil => simp [indexPut]
  | cons d l => simp only [indexPut]; split <;> [skip; split] <;> simp

theorem indexFind_put_same (l : List IndexEntry) (e : IndexEntry) : indexFind (indexPut l e) e.addr = some e := by
  induction l with
  | nil => simp [indexPut, indexFind]
  | cons d l ih =>
    simp only [indexPut]
    split
    · simp [indexFind]
    · split
      · simp [indexFind]
      · rename_i hne
        simpa [indexFind, Ne.symm hne] using ih

theorem indexFind_put_other (l : List IndexEntry) (e : IndexEntry) {a : Nat} (h : a ≠ e.addr) :
    indexFind (indexPut l e) a = indexFind l a := by
  induction l with
  | nil => simp [indexPut, indexFind, Ne.symm h]
  | cons d l ih =>
    simp only [indexPut]
    split
    · simp [indexFind, Ne.symm h]
    · split
      · rename_i heq
        simp [indexFind, Ne.symm h, ← heq]
      · simp [indexFind, ih]

theorem indexFind_map (l : List IndexEntry) (f : IndexEntry → IndexEntry) (hf : ∀ e, (f e).addr = e.addr) (a : Nat) :
    indexFind (l.map f) a = (indexFind l a).map f := by
  induction l with
  | nil => rfl
  | cons e l ih => simp only [List.map_cons, indexFind, hf]; split <;> simp [ih]

end Sys2Proof.Machine
end

