-- ==== Sys2Proof/Laws/State.lean ====
section
/-! SUPPORT. One lemma per field per update of State, so that no proof unfolds a record update. -/

namespace Sys2Proof.Machine

@[simp] theorem DataRegister.setValue_value (r : DataRegister) (v : Word16) : (r.setValue v).value = v := rfl
@[simp] theorem DataRegister.setValue_mode (r : DataRegister) (v : Word16) : (r.setValue v).mode = r.mode := rfl
@[simp] theorem AddrRegister.setValue_value (r : AddrRegister) (v : Int) : (r.setValue v).value = mask12 v := rfl
@[simp] theorem AddrRegister.setValue_mode (r : AddrRegister) (v : Int) : (r.setValue v).mode = r.mode := rfl

section
variable (s : State)

@[simp] theorem State.setAC_ac (v : Word16) : (s.setAC v).ac = s.ac.setValue v := rfl
@[simp] theorem State.setAC_ir (v : Word16) : (s.setAC v).ir = s.ir := rfl
@[simp] theorem State.setAC_mbr (v : Word16) : (s.setAC v).mbr = s.mbr := rfl
@[simp] theorem State.setAC_input (v : Word16) : (s.setAC v).input = s.input := rfl
@[simp] theorem State.setAC_output (v : Word16) : (s.setAC v).output = s.output := rfl
@[simp] theorem State.setAC_mar (v : Word16) : (s.setAC v).mar = s.mar := rfl
@[simp] theorem State.setAC_pc (v : Word16) : (s.setAC v).pc = s.pc := rfl
@[simp] theorem State.setAC_mem (v : Word16) : (s.setAC v).mem = s.mem := rfl
@[simp] theorem State.setAC_mstate (v : Word16) : (s.setAC v).mstate = s.mstate := rfl
@[simp] theorem State.setAC_fatal (v : Word16) : (s.setAC v).fatal = s.fatal := rfl
@[simp] theorem State.setAC_fetchAddr (v : Word16) : (s.setAC v).fetchAddr = s.fetchAddr := rfl
@[simp] theorem State.setAC_cursor (v : Word16) : (s.setAC v).cursor = s.cursor := rfl
@[simp] theorem State.setAC_outStream (v : Word16) : (s.setAC v).outStream = s.outStream := rfl
@[simp] theorem State.setAC_addrIndex (v : Word16) : (s.setAC v).addrIndex = s.addrIndex := rfl
@[simp] theorem State.setAC_ctl (v : Word16) : (s.setAC v).ctl = s.ctl := rfl
@[simp] theorem State.setAC_agenda (v : Word16) : (s.setAC v).agenda = s.agenda := rfl
@[simp] theorem State.setAC_replies (v : Word16) : (s.setAC v).replies = s.replies := rfl
@[simp] theorem State.setAC_draws (v : Word16) : (s.setAC v).draws = s.draws := rfl

@[simp] theorem State.setIR_ac (v : Word16) : (s.setIR v).ac = s.ac := rfl
@[simp] theorem State.setIR_ir (v : Word16) : (s.setIR v).ir = s.ir.setValue v := rfl
@[simp] theorem State.setIR_mbr (v : Word16) : (s.setIR v).mbr = s.mbr := rfl
@[simp] theorem State.setIR_input (v : Word16) : (s.setIR v).input = s.input := rfl
@[simp] theorem State.setIR_output (v : Word16) : (s.setIR v).output = s.output := rfl
@[simp] theorem State.setIR_mar (v : Word16) : (s.setIR v).mar = s.mar := rfl
@[simp] theorem State.setIR_pc (v : Word16) : (s.setIR v).pc = s.pc := rfl
@[simp] theorem State.setIR_mem (v : Word16) : (s.setIR v).mem = s.mem := rfl
@[simp] theorem State.setIR_mstate (v : Word16) : (s.setIR v).mstate = s.mstate := rfl
@[simp] theorem State.setIR_fatal (v : Word16) : (s.setIR v).fatal = s.fatal := rfl
@[simp] theorem State.setIR_fetchAddr (v : Word16) : (s.setIR v).fetchAddr = s.fetchAddr := rfl
@[simp] theorem State.setIR_cursor (v : Word16) : (s.setIR v).cursor = s.cursor := rfl
@[simp] theorem State.setIR_outStream (v : Word16) : (s.setIR v).outStream = s.outStream := rfl
@[simp] theorem State.setIR_addrIndex (v : Word16) : (s.setIR v).addrIndex = s.addrIndex := rfl
@[simp] theorem State.setIR_ctl (v : Word16) : (s.setIR v).ctl = s.ctl := rfl
@[simp] theorem State.setIR_agenda (v : Word16) : (s.setIR v).agenda = s.agenda := rfl
@[simp] theorem State.setIR_replies (v : Word16) : (s.setIR v).replies = s.replies := rfl
@[simp] theorem State.setIR_draws (v : Word16) : (s.setIR v).draws = s.draws := rfl

@[simp] theorem State.setMBR_ac (v : Word16) : (s.setMBR v).ac = s.ac := rfl
@[simp] theorem State.setMBR_ir (v : Word16) : (s.setMBR v).ir = s.ir := rfl
@[simp] theorem State.setMBR_mbr (v : Word16) : (s.setMBR v).mbr = s.mbr.setValue v := rfl
@[simp] theorem State.setMBR_input (v : Word16) : (s.setMBR v).input = s.input := rfl
@[simp] theorem State.setMBR_output (v : Word16) : (s.setMBR v).output = s.output := rfl
@[simp] theorem State.setMBR_mar (v : Word16) : (s.setMBR v).mar = s.mar := rfl
@[simp] theorem State.setMBR_pc (v : Word16) : (s.setMBR v).pc = s.pc := rfl
@[simp] theorem State.setMBR_mem (v : Word16) : (s.setMBR v).mem = s.mem := rfl
@[simp] theorem State.setMBR_mstate (v : Word16) : (s.setMBR v).mstate = s.mstate := rfl
@[simp] theorem State.setMBR_fatal (v : Word16) : (s.setMBR v).fatal = s.fatal := rfl
@[simp] theorem State.setMBR_fetchAddr (v : Word16) : (s.setMBR v).fetchAddr = s.fetchAddr := rfl
@[simp] theorem State.setMBR_cursor (v : Word16) : (s.setMBR v).cursor = s.cursor := rfl
@[simp] theorem State.setMBR_outStream (v : Word16) : (s.setMBR v).outStream = s.outStream := rfl
@[simp] theorem State.setMBR_addrIndex (v : Word16) : (s.setMBR v).addrIndex = s.addrIndex := rfl
@[simp] theorem State.setMBR_ctl (v : Word16) : (s.setMBR v).ctl = s.ctl := rfl
@[simp] theorem State.setMBR_agenda (v : Word16) : (s.setMBR v).agenda = s.agenda := rfl
@[simp] theorem State.setMBR_replies (v : Word16) : (s.setMBR v).replies = s.replies := rfl
@[simp] theorem State.setMBR_draws (v : Word16) : (s.setMBR v).draws = s.draws := rfl

@[simp] theorem State.setINPUT_ac (v : Word16) : (s.setINPUT v).ac = s.ac := rfl
@[simp] theorem State.setINPUT_ir (v : Word16) : (s.setINPUT v).ir = s.ir := rfl
@[simp] theorem State.setINPUT_mbr (v : Word16) : (s.setINPUT v).mbr = s.mbr := rfl
@[simp] theorem State.setINPUT_input (v : Word16) : (s.setINPUT v).input = s.input.setValue v := rfl
@[simp] theorem State.setINPUT_output (v : Word16) : (s.setINPUT v).output = s.output := rfl
@[simp] theorem State.setINPUT_mar (v : Word16) : (s.setINPUT v).mar = s.mar := rfl
@[simp] theorem State.setINPUT_pc (v : Word16) : (s.setINPUT v).pc = s.pc := rfl
@[simp] theorem State.setINPUT_mem (v : Word16) : (s.setINPUT v).mem = s.mem := rfl
@[simp] theorem State.setINPUT_mstate (v : Word16) : (s.setINPUT v).mstate = s.mstate := rfl
@[simp] theorem State.setINPUT_fatal (v : Word16) : (s.setINPUT v).fatal = s.fatal := rfl
@[simp] theorem State.setINPUT_fetchAddr (v : Word16) : (s.setINPUT v).fetchAddr = s.fetchAddr := rfl
@[simp] theorem State.setINPUT_cursor (v : Word16) : (s.setINPUT v).cursor = s.cursor := rfl
@[simp] theorem State.setINPUT_outStream (v : Word16) : (s.setINPUT v).outStream = s.outStream := rfl
@[simp] theorem State.setINPUT_addrIndex (v : Word16) : (s.setINPUT v).addrIndex = s.addrIndex := rfl
@[simp] theorem State.setINPUT_ctl (v : Word16) : (s.setINPUT v).ctl = s.ctl := rfl
@[simp] theorem State.setINPUT_agenda (v : Word16) : (s.setINPUT v).agenda = s.agenda := rfl
@[simp] theorem State.setINPUT_replies (v : Word16) : (s.setINPUT v).replies = s.replies := rfl
@[simp] theorem State.setINPUT_draws (v : Word16) : (s.setINPUT v).draws = s.draws := rfl

@[simp] theorem State.setOUTPUT_ac (v : Word16) : (s.setOUTPUT v).ac = s.ac := rfl
@[simp] theorem State.setOUTPUT_ir (v : Word16) : (s.setOUTPUT v).ir = s.ir := rfl
@[simp] theorem State.setOUTPUT_mbr (v : Word16) : (s.setOUTPUT v).mbr = s.mbr := rfl
@[simp] theorem State.setOUTPUT_input (v : Word16) : (s.setOUTPUT v).input = s.input := rfl
@[simp] theorem State.setOUTPUT_output (v : Word16) : (s.setOUTPUT v).output = s.output.setValue v := rfl
@[simp] theorem State.setOUTPUT_mar (v : Word16) : (s.setOUTPUT v).mar = s.mar := rfl
@[simp] theorem State.setOUTPUT_pc (v : Word16) : (s.setOUTPUT v).pc = s.pc := rfl
@[simp] theorem State.setOUTPUT_mem (v : Word16) : (s.setOUTPUT v).mem = s.mem := rfl
@[simp] theorem State.setOUTPUT_mstate (v : Word16) : (s.setOUTPUT v).mstate = s.mstate := rfl
@[simp] theorem State.setOUTPUT_fatal (v : Word16) : (s.setOUTPUT v).fatal = s.fatal := rfl
@[simp] theorem State.setOUTPUT_fetchAddr (v : Word16) : (s.setOUTPUT v).fetchAddr = s.fetchAddr := rfl
@[simp] theorem State.setOUTPUT_cursor (v : Word16) : (s.setOUTPUT v).cursor = s.cursor := rfl
@[simp] theorem State.setOUTPUT_outStream (v : Word16) : (s.setOUTPUT v).outStream = s.outStream := rfl
@[simp] theorem State.setOUTPUT_addrIndex (v : Word16) : (s.setOUTPUT v).addrIndex = s.addrIndex := rfl
@[simp] theorem State.setOUTPUT_ctl (v : Word16) : (s.setOUTPUT v).ctl = s.ctl := rfl
@[simp] theorem State.setOUTPUT_agenda (v : Word16) : (s.setOUTPUT v).agenda = s.agenda := rfl
@[simp] theorem State.setOUTPUT_replies (v : Word16) : (s.setOUTPUT v).replies = s.replies := rfl
@[simp] theorem State.setOUTPUT_draws (v : Word16) : (s.setOUTPUT v).draws = s.draws := rfl

@[simp] theorem State.setMAR_ac (v : Int) : (s.setMAR v).ac = s.ac := rfl
@[simp] theorem State.setMAR_ir (v : Int) : (s.setMAR v).ir = s.ir := rfl
@[simp] theorem State.setMAR_mbr (v : Int) : (s.setMAR v).mbr = s.mbr := rfl
@[simp] theorem State.setMAR_input (v : Int) : (s.setMAR v).input = s.input := rfl
@[simp] theorem State.setMAR_output (v : Int) : (s.setMAR v).output = s.output := rfl
@[simp] theorem State.setMAR_mar (v : Int) : (s.setMAR v).mar = s.mar.setValue v := rfl
@[simp] theorem State.setMAR_pc (v : Int) : (s.setMAR v).pc = s.pc := rfl
@[simp] theorem State.setMAR_mem (v : Int) : (s.setMAR v).mem = s.mem := rfl
@[simp] theorem State.setMAR_mstate (v : Int) : (s.setMAR v).mstate = s.mstate := rfl
@[simp] theorem State.setMAR_fatal (v : Int) : (s.setMAR v).fatal = s.fatal := rfl
@[simp] theorem State.setMAR_fetchAddr (v : Int) : (s.setMAR v).fetchAddr = s.fetchAddr := rfl
@[simp] theorem State.setMAR_cursor (v : Int) : (s.setMAR v).cursor = s.cursor := rfl
@[simp] theorem State.setMAR_outStream (v : Int) : (s.setMAR v).outStream = s.outStream := rfl
@[simp] theorem State.setMAR_addrIndex (v : Int) : (s.setMAR v).addrIndex = s.addrIndex := rfl
@[simp] theorem State.setMAR_ctl (v : Int) : (s.setMAR v).ctl = s.ctl := rfl
@[simp] theorem State.setMAR_agenda (v : Int) : (s.setMAR v).agenda = s.agenda := rfl
@[simp] theorem State.setMAR_replies (v : Int) : (s.setMAR v).replies = s.replies := rfl
@[simp] theorem State.setMAR_draws (v : Int) : (s.setMAR v).draws = s.draws := rfl

@[simp] theorem State.setPC_ac (v : Int) : (s.setPC v).ac = s.ac := rfl
@[simp] theorem State.setPC_ir (v : Int) : (s.setPC v).ir = s.ir := rfl
@[simp] theorem State.setPC_mbr (v : Int) : (s.setPC v).mbr = s.mbr := rfl
@[simp] theorem State.setPC_input (v : Int) : (s.setPC v).input = s.input := rfl
@[simp] theorem State.setPC_output (v : Int) : (s.setPC v).output = s.output := rfl
@[simp] theorem State.setPC_mar (v : Int) : (s.setPC v).mar = s.mar := rfl
@[simp] theorem State.setPC_pc (v : Int) : (s.setPC v).pc = s.pc.setValue v := rfl
@[simp] theorem State.setPC_mem (v : Int) : (s.setPC v).mem = s.mem := rfl
@[simp] theorem State.setPC_mstate (v : Int) : (s.setPC v).mstate = s.mstate := rfl
@[simp] theorem State.setPC_fatal (v : Int) : (s.setPC v).fatal = s.fatal := rfl
@[simp] theorem State.setPC_fetchAddr (v : Int) : (s.setPC v).fetchAddr = s.fetchAddr := rfl
@[simp] theorem State.setPC_cursor (v : Int) : (s.setPC v).cursor = s.cursor := rfl
@[simp] theorem State.setPC_outStream (v : Int) : (s.setPC v).outStream = s.outStream := rfl
@[simp] theorem State.setPC_addrIndex (v : Int) : (s.setPC v).addrIndex = s.addrIndex := rfl
@[simp] theorem State.setPC_ctl (v : Int) : (s.setPC v).ctl = s.ctl := rfl
@[simp] theorem State.setPC_agenda (v : Int) : (s.setPC v).agenda = s.agenda := rfl
@[simp] theorem State.setPC_replies (v : Int) : (s.setPC v).replies = s.replies := rfl
@[simp] theorem State.setPC_draws (v : Int) : (s.setPC v).draws = s.draws := rfl

@[simp] theorem State.setMState_ac (v : MState) : (s.setMState v).ac = s.ac := rfl
@[simp] theorem State.setMState_ir (v : MState) : (s.setMState v).ir = s.ir := rfl
@[simp] theorem State.setMState_mbr (v : MState) : (s.setMState v).mbr = s.mbr := rfl
@[simp] theorem State.setMState_input (v : MState) : (s.setMState v).input = s.input := rfl
@[simp] theorem State.setMState_output (v : MState) : (s.setMState v).output = s.output := rfl
@[simp] theorem State.setMState_mar (v : MState) : (s.setMState v).mar = s.mar := rfl
@[simp] theorem State.setMState_pc (v : MState) : (s.setMState v).pc = s.pc := rfl
@[simp] theorem State.setMState_mem (v : MState) : (s.setMState v).mem = s.mem := rfl
@[simp] theorem State.setMState_mstate (v : MState) : (s.setMState v).mstate = v := rfl
@[simp] theorem State.setMState_fatal (v : MState) : (s.setMState v).fatal = s.fatal := rfl
@[simp] theorem State.setMState_fetchAddr (v : MState) : (s.setMState v).fetchAddr = s.fetchAddr := rfl
@[simp] theorem State.setMState_cursor (v : MState) : (s.setMState v).cursor = s.cursor := rfl
@[simp] theorem State.setMState_outStream (v : MState) : (s.setMState v).outStream = s.outStream := rfl
@[simp] theorem State.setMState_addrIndex (v : MState) : (s.setMState v).addrIndex = s.addrIndex := rfl
@[simp] theorem State.setMState_ctl (v : MState) : (s.setMState v).ctl = s.ctl := rfl
@[simp] theorem State.setMState_agenda (v : MState) : (s.setMState v).agenda = s.agenda := rfl
@[simp] theorem State.setMState_replies (v : MState) : (s.setMState v).replies = s.replies := rfl
@[simp] theorem State.setMState_draws (v : MState) : (s.setMState v).draws = s.draws := rfl

@[simp] theorem raiseFatal_ac (c : ErrorCode) : (raiseFatal c s).ac = s.ac := rfl
@[simp] theorem raiseFatal_ir (c : ErrorCode) : (raiseFatal c s).ir = s.ir := rfl
@[simp] theorem raiseFatal_mbr (c : ErrorCode) : (raiseFatal c s).mbr = s.mbr := rfl
@[simp] theorem raiseFatal_input (c : ErrorCode) : (raiseFatal c s).input = s.input := rfl
@[simp] theorem raiseFatal_output (c : ErrorCode) : (raiseFatal c s).output = s.output := rfl
@[simp] theorem raiseFatal_mar (c : ErrorCode) : (raiseFatal c s).mar = s.mar := rfl
@[simp] theorem raiseFatal_pc (c : ErrorCode) : (raiseFatal c s).pc = s.pc := rfl
@[simp] theorem raiseFatal_mem (c : ErrorCode) : (raiseFatal c s).mem = s.mem := rfl
@[simp] theorem raiseFatal_mstate (c : ErrorCode) : (raiseFatal c s).mstate = .haltedAbnormal := rfl
@[simp] theorem raiseFatal_fatal (c : ErrorCode) : (raiseFatal c s).fatal = some c := rfl
@[simp] theorem raiseFatal_fetchAddr (c : ErrorCode) : (raiseFatal c s).fetchAddr = s.fetchAddr := rfl
@[simp] theorem raiseFatal_cursor (c : ErrorCode) : (raiseFatal c s).cursor = s.cursor := rfl
@[simp] theorem raiseFatal_outStream (c : ErrorCode) : (raiseFatal c s).outStream = s.outStream := rfl
@[simp] theorem raiseFatal_addrIndex (c : ErrorCode) : (raiseFatal c s).addrIndex = s.addrIndex := rfl
@[simp] theorem raiseFatal_ctl (c : ErrorCode) : (raiseFatal c s).ctl = s.ctl := rfl
@[simp] theorem raiseFatal_agenda (c : ErrorCode) : (raiseFatal c s).agenda = s.agenda := rfl
@[simp] theorem raiseFatal_replies (c : ErrorCode) : (raiseFatal c s).replies = s.replies := rfl
@[simp] theorem raiseFatal_draws (c : ErrorCode) : (raiseFatal c s).draws = s.draws := rfl

@[simp] theorem emit_ac (v : Word16) (m : Mode) : (emit v m s).ac = s.ac := rfl
@[simp] theorem emit_ir (v : Word16) (m : Mode) : (emit v m s).ir = s.ir := rfl
@[simp] theorem emit_mbr (v : Word16) (m : Mode) : (emit v m s).mbr = s.mbr := rfl
@[simp] theorem emit_input (v : Word16) (m : Mode) : (emit v m s).input = s.input := rfl
@[simp] theorem emit_output (v : Word16) (m : Mode) : (emit v m s).output = s.output := rfl
@[simp] theorem emit_mar (v : Word16) (m : Mode) : (emit v m s).mar = s.mar := rfl
@[simp] theorem emit_pc (v : Word16) (m : Mode) : (emit v m s).pc = s.pc := rfl
@[simp] theorem emit_mem (v : Word16) (m : Mode) : (emit v m s).mem = s.mem := rfl
@[simp] theorem emit_mstate (v : Word16) (m : Mode) : (emit v m s).mstate = s.mstate := rfl
@[simp] theorem emit_fatal (v : Word16) (m : Mode) : (emit v m s).fatal = s.fatal := rfl
@[simp] theorem emit_fetchAddr (v : Word16) (m : Mode) : (emit v m s).fetchAddr = s.fetchAddr := rfl
@[simp] theorem emit_cursor (v : Word16) (m : Mode) : (emit v m s).cursor = s.cursor := rfl
@[simp] theorem emit_outStream (v : Word16) (m : Mode) : (emit v m s).outStream = s.outStream ++ [⟨v, m⟩] := rfl
@[simp] theorem emit_addrIndex (v : Word16) (m : Mode) : (emit v m s).addrIndex = s.addrIndex := rfl
@[simp] theorem emit_ctl (v : Word16) (m : Mode) : (emit v m s).ctl = s.ctl := rfl
@[simp] theorem emit_agenda (v : Word16) (m : Mode) : (emit v m s).agenda = s.agenda := rfl
@[simp] theorem emit_replies (v : Word16) (m : Mode) : (emit v m s).replies = s.replies := rfl
@[simp] theorem emit_draws (v : Word16) (m : Mode) : (emit v m s).draws = s.draws := rfl

end

end Sys2Proof.Machine
end

