-- ==== Sys2Proof/Laws/Word.lean ====
section
/-! SUPPORT. The arithmetic primitives as bit-vector operations. -/

namespace Sys2Proof.Machine

@[simp] theorem mask12_toNat (a : Addr12) : mask12 (a.toNat : Int) = a := by
  simp [mask12]

@[simp] theorem mask12_sval (w : Word16) : mask12 w.toInt = w.setWidth 12 := by
  apply BitVec.eq_of_toNat_eq
  have h := BitVec.toInt_eq_toNat_bmod w
  simp only [mask12, BitVec.toNat_ofInt, BitVec.toNat_setWidth, BitVec.toInt_eq_toNat_cond]
  have := w.isLt
  split <;> omega

@[simp] theorem mask12_succ (a : Addr12) : mask12 ((a.toNat : Int) + 1) = a + 1#12 := by
  apply BitVec.eq_of_toNat_eq
  simp only [mask12, BitVec.toNat_ofInt, BitVec.toNat_add, BitVec.toNat_ofNat]
  omega

@[simp] theorem wrap16_succ (a : Addr12) : wrap16 ((a.toNat : Int) + 1) = a.setWidth 16 + 1#16 := by
  apply BitVec.eq_of_toNat_eq
  simp only [wrap16, BitVec.toNat_ofInt, BitVec.toNat_add, BitVec.toNat_ofNat, BitVec.toNat_setWidth]
  have := a.isLt
  omega

/-- The signed wrapping sum is the bit-vector sum. -/
theorem sum16_eq (a b : Word16) : sum16 a b = a + b := by
  simp [sum16, wrap16, sval, BitVec.ofInt_add]

/-- The signed wrapping difference is the bit-vector difference. -/
theorem difference16_eq (a b : Word16) : difference16 a b = a - b := by
  apply BitVec.eq_of_toInt_eq
  simp [difference16, wrap16, BitVec.toInt_sub]

theorem addr_toNat_le (a : Addr12) : a.toNat ≤ 4095 := by have := a.isLt; omega

theorem addr_eq_top_iff (a : Addr12) : a = 4095#12 ↔ a.toNat + 1 > 4095 := by
  rw [← BitVec.toNat_inj, BitVec.toNat_ofNat]
  have := a.isLt
  omega

end Sys2Proof.Machine
end

