-- ==== Sys2Proof/Laws/Ops.lean ====
section
/-! SUPPORT. What each shared operation can do, once: an equation where it always goes on, an inversion where it may stop the cycle. -/

namespace Sys2Proof.Machine

/-! ### Memory access -/

/-- An address from a 12-bit register is in range (20_memory.md R65). -/
@[simp] theorem memRead_addr (a : Addr12) (s : State) (k : Word16 → Result) :
    memRead (a.toNat : Int) s k = k (s.mem.read a.toNat) := by
  have := addr_toNat_le a
  unfold memRead
  rw [if_pos (by omega), Int.toNat_natCast]

@[simp] theorem memWrite_addr (a : Addr12) (v : Word16) (s : State) (k : State → Result) :
    memWrite (a.toNat : Int) v s k = k { s with mem := s.mem.write a.toNat v } := by
  have := addr_toNat_le a
  unfold memWrite
  rw [if_pos (by omega), Int.toNat_natCast]

theorem memWrite_in_range {a : Int} (h : 0 ≤ a ∧ a ≤ 4095) (v : Word16) (s : State) (k : State → Result) :
    memWrite a v s k = k { s with mem := s.mem.write a.toNat v } := if_pos h

theorem memWrite_out_of_range {a : Int} (h : ¬(0 ≤ a ∧ a ≤ 4095)) (v : Word16) (s : State) (k : State → Result) :
    memWrite a v s k = .next (raiseFatal .addressOutOfRange s) := if_neg h

/-! ### Phases -/

theorem fetchPhase_eq (s : State) (k : State → Result) : fetchPhase s k = k (fetched s) := by
  simp [fetchPhase, fetched, State.setMAR, State.setIR, AddrRegister.setValue, DataRegister.setValue, cursorAfter]

theorem operandPhase_eq (x : Addr12) (s : State) (k : State → Result) :
    operandPhase x s k = k (operandFetched x s) := by
  simp [operandPhase, operandFetched, State.setMAR, State.setMBR, AddrRegister.setValue, DataRegister.setValue]

theorem pointerStep_eq (s : State) (k : State → Result) : pointerStep s k = k (pointerFollowed s) := by
  simp only [pointerStep, memRead_addr]
  simp [pointerFollowed, State.cell, State.setMAR, State.setMBR, AddrRegister.setValue, DataRegister.setValue]

theorem incrementPhase_below {s : State} (h : s.pc.value ≠ 4095#12) (k : State → Result) :
    incrementPhase s k = k (incremented s) := by
  unfold incrementPhase
  rw [if_neg (by rwa [← addr_eq_top_iff])]
  simp [incremented, State.setPC, AddrRegister.setValue]

theorem incrementPhase_top {s : State} (h : s.pc.value = 4095#12) (k : State → Result) :
    incrementPhase s k = .next (raiseFatal .maxProgramReached s) := by
  unfold incrementPhase
  rw [if_pos (by rwa [← addr_eq_top_iff])]

theorem withOperand_below {s : State} (hc : s.mstate ≠ .uninitialized) (h : s.pc.value ≠ 4095#12) (x : Addr12)
    (k : State → Result) : withOperand x s k = k (incremented (operandFetched x s)) := by
  simp only [withOperand, ifConstructed, if_neg hc, operandPhase_eq]
  exact incrementPhase_below (s := operandFetched x s) h k

theorem withOperand_top {s : State} (hc : s.mstate ≠ .uninitialized) (h : s.pc.value = 4095#12) (x : Addr12)
    (k : State → Result) : withOperand x s k = .next (raiseFatal .maxProgramReached (operandFetched x s)) := by
  simp only [withOperand, ifConstructed, if_neg hc, operandPhase_eq]
  exact incrementPhase_top (s := operandFetched x s) h k

theorem withoutOperand_below {s : State} (hc : s.mstate ≠ .uninitialized) (h : s.pc.value ≠ 4095#12)
    (k : State → Result) : withoutOperand s k = k (incremented s) := by
  simp only [withoutOperand, ifConstructed, if_neg hc]
  exact incrementPhase_below h k

theorem withoutOperand_top {s : State} (hc : s.mstate ≠ .uninitialized) (h : s.pc.value = 4095#12)
    (k : State → Result) : withoutOperand s k = .next (raiseFatal .maxProgramReached s) := by
  simp only [withoutOperand, ifConstructed, if_neg hc]
  exact incrementPhase_top h k

/-- Everything the decode phase of an operand-requiring opcode can do when it answers a next state. -/
theorem withOperand_next {x : Addr12} {s t : State} {k : State → Result} (h : withOperand x s k = .next t) :
    s.mstate ≠ .uninitialized ∧
      ((s.pc.value = 4095#12 ∧ t = raiseFatal .maxProgramReached (operandFetched x s)) ∨
       (s.pc.value ≠ 4095#12 ∧ k (incremented (operandFetched x s)) = .next t)) := by
  by_cases hc : s.mstate = .uninitialized
  · simp [withOperand, ifConstructed, hc] at h
  · refine ⟨hc, ?_⟩
    by_cases hp : s.pc.value = 4095#12
    · rw [withOperand_top hc hp] at h
      exact .inl ⟨hp, by injection h with h; exact h.symm⟩
    · rw [withOperand_below hc hp] at h
      exact .inr ⟨hp, h⟩

/-- Everything the decode phase of the other opcodes can do when it answers a next state. -/
theorem withoutOperand_next {s t : State} {k : State → Result} (h : withoutOperand s k = .next t) :
    s.mstate ≠ .uninitialized ∧
      ((s.pc.value = 4095#12 ∧ t = raiseFatal .maxProgramReached s) ∨
       (s.pc.value ≠ 4095#12 ∧ k (incremented s) = .next t)) := by
  by_cases hc : s.mstate = .uninitialized
  · simp [withoutOperand, ifConstructed, hc] at h
  · refine ⟨hc, ?_⟩
    by_cases hp : s.pc.value = 4095#12
    · rw [withoutOperand_top hc hp] at h
      exact .inl ⟨hp, by injection h with h; exact h.symm⟩
    · rw [withoutOperand_below hc hp] at h
      exact .inr ⟨hp, h⟩

/-- Everything a write can do when it answers a next state. -/
theorem memWrite_next {a : Int} {v : Word16} {s t : State} {k : State → Result} (h : memWrite a v s k = .next t) :
    ((0 ≤ a ∧ a ≤ 4095) ∧ k { s with mem := s.mem.write a.toNat v } = .next t) ∨
      (¬(0 ≤ a ∧ a ≤ 4095) ∧ t = raiseFatal .addressOutOfRange s) := by
  unfold memWrite at h
  split at h
  · exact .inl ⟨by assumption, h⟩
  · exact .inr ⟨by assumption, by injection h with h; exact h.symm⟩

/-! ### The end of a cycle -/

theorem boundaryCheck_cases (s : State) :
    boundaryCheck s = s ∨
      (boundaryCheck s = s.setMState .paused ∧ s.ctl = .runToBreakpoint ∧ s.mstate = .running ∧
        onBreakpoint s = true) := by
  unfold boundaryCheck
  split
  · rename_i h
    exact .inr ⟨rfl, h⟩
  · exact .inl rfl

theorem endCycle_next {r : Result} {t : State} (h : endCycle r = .next t) :
    ∃ u, r = .next u ∧ t = boundaryCheck u := by
  cases r with
  | next u => exact ⟨u, rfl, by injection h with h; exact h.symm⟩
  | fault f => cases f
  | refused r => simp [endCycle] at h

/-- Everything decode and what follows can do when it answers a next state. -/
theorem decodeAndExecute_next {s t : State} (h : decodeAndExecute s = .next t) :
    (decode s.ir.value = .error .illegalOpcode ∧ t = raiseFatal .illegalOpcode s) ∨
      ∃ i u, decode s.ir.value = .ok i ∧ exec i s = .next u ∧ t = boundaryCheck u := by
  unfold decodeAndExecute at h
  split at h
  · rename_i hd
    exact .inl ⟨hd, by injection h with h; exact h.symm⟩
  · rename_i i hd
    obtain ⟨u, hu, ht⟩ := endCycle_next h
    exact .inr ⟨i, u, hd, hu, ht⟩

theorem cycle_eq (s : State) : cycle s = decodeAndExecute (fetched s) := fetchPhase_eq s _

theorem runsFreely_iff (s : State) : runsFreely s = true ↔ s.mstate = .running ∧ s.ctl ≠ .singleStep := by
  simp [runsFreely]

/-- Everything a boundary without a command can do. -/
theorem letRun_cases (s : State) :
    (s.mstate = .running ∧ s.ctl ≠ .singleStep ∧ letRun s = decodeAndExecute (fetched s)) ∨
      (¬(s.mstate = .running ∧ s.ctl ≠ .singleStep) ∧ letRun s = .next s) := by
  unfold letRun
  split
  · rename_i h
    obtain ⟨h1, h2⟩ := (runsFreely_iff s).mp h
    exact .inl ⟨h1, h2, cycle_eq s⟩
  · rename_i h
    exact .inr ⟨fun h' => h ((runsFreely_iff s).mpr h'), rfl⟩

/-! ### Commands and steps -/

/-- Everything a host command can do. -/
theorem hostCommand_cases (c : Command) (s : State) :
    (accepts c s = false ∧ hostCommand c s = .next (s.tell .refused)) ∨
      (accepts c s = true ∧ c ≠ .step ∧
        hostCommand c s = .next ((commandEffect c s).1.tell (commandEffect c s).2)) ∨
      (accepts c s = true ∧ c = .step ∧
        hostCommand c s = decodeAndExecute (fetched ((stepCommand s).tell .accepted))) := by
  unfold hostCommand
  by_cases ha : accepts c s = true
  · right
    by_cases hs : c = .step
    · subst hs
      exact .inr ⟨ha, rfl, by rw [if_pos ha]; simp [afterCommand, commandEffect, cycle_eq]⟩
    · exact .inl ⟨ha, hs, by rw [if_pos ha]; simp [afterCommand, hs]⟩
  · exact .inl ⟨by simpa using ha, by rw [if_neg ha]⟩

/-- Everything a step can do: the next command, or a boundary without one. -/
theorem step_cases (s : State) :
    (∃ c rest, s.agenda = .command c :: rest ∧ step s = hostCommand c { s with agenda := rest }) ∨
      (nextCommand s = none ∧ step s = letRun { s with agenda := s.agenda.tail }) := by
  obtain ⟨_, _, _, _, _, _, _, _, _, _, _, _, _, _, _, agenda, _, _⟩ := s
  match agenda with
  | [] => exact .inr ⟨rfl, rfl⟩
  | .letRun :: rest => exact .inr ⟨rfl, rfl⟩
  | .command c :: rest => exact .inl ⟨c, rest, rfl, rfl⟩

end Sys2Proof.Machine
end

