-- ==== Sys2Proof/Laws/Exec.lean ====
section
/-! SUPPORT. What each instruction can do, once: the inversion of `exec` that later proofs cite instead of unfolding a meaning. -/

namespace Sys2Proof.Machine

/-- The execute phase of `i` takes the decoded state `u` to `t`. -/
def Executed (i : Instr) (u t : State) : Prop :=
  match i with
  | .jnS _ => t = (State.setPC (State.setAC { u with mem := u.mem.write u.mar.value.toNat (zext16 u.pc.value) }
      (u.mar.value.setWidth 16 + 1#16)) (sval (u.mar.value.setWidth 16 + 1#16)))
  | .load _ => t = u.setAC u.mbr.value
  | .store _ => t = { u with mem := u.mem.write u.mar.value.toNat u.ac.value }
  | .add _ => t = u.setAC (u.ac.value + u.mbr.value)
  | .subt _ => t = u.setAC (u.ac.value - u.mbr.value)
  | .input => t = u.setMState .blockedOnInput
  | .output => t = emit u.ac.value u.output.mode (u.setOUTPUT u.ac.value)
  | .halt => t = u.setMState (haltState u.fatal)
  | .skipCond cond =>
    (cond = 0b11#2 ∧ t = raiseFatal .illegalConditionalOperand u) ∨
      (cond ≠ 0b11#2 ∧ conditionHolds cond u.ac.value = true ∧ t = u.setPC (u.pc.value.toNat + 1)) ∨
      (cond ≠ 0b11#2 ∧ conditionHolds cond u.ac.value = false ∧ t = u)
  | .jump x => t = u.setPC x.toNat
  | .clear => t = u.setAC 0#16
  | .addI _ => t = (pointerFollowed u).setAC (u.ac.value + (pointerFollowed u).mbr.value)
  | .jumpI _ => t = u.setPC (sval u.mbr.value)
  | .loadI _ => t = (pointerFollowed u).setAC (pointerFollowed u).mbr.value
  | .storeI _ =>
    let p := pointerFollowed u
    ((0 ≤ sval p.mbr.value ∧ sval p.mbr.value ≤ 4095) ∧
        t = { p with mem := p.mem.write (sval p.mbr.value).toNat p.ac.value }) ∨
      (¬(0 ≤ sval p.mbr.value ∧ sval p.mbr.value ≤ 4095) ∧ t = raiseFatal .addressOutOfRange p)

theorem withOperand_executed {i : Instr} {x : Addr12} {s t : State} {k : State → Result} (hi : operandOf i = some x)
    (hk : ∀ u, k u = .next t → Executed i u t) (h : withOperand x s k = .next t) :
    s.mstate ≠ .uninitialized ∧
      ((s.pc.value = 4095#12 ∧ t = raiseFatal .maxProgramReached (decodedFor i s)) ∨
       (s.pc.value ≠ 4095#12 ∧ Executed i (incremented (decodedFor i s)) t)) := by
  obtain ⟨hc, h⟩ := withOperand_next h
  have hd : decodedFor i s = operandFetched x s := by simp [decodedFor, hi]
  rw [hd]
  exact ⟨hc, h.imp id fun h => ⟨h.1, hk _ h.2⟩⟩

theorem withoutOperand_executed {i : Instr} {s t : State} {k : State → Result} (hi : operandOf i = none)
    (hk : ∀ u, k u = .next t → Executed i u t) (h : withoutOperand s k = .next t) :
    s.mstate ≠ .uninitialized ∧
      ((s.pc.value = 4095#12 ∧ t = raiseFatal .maxProgramReached (decodedFor i s)) ∨
       (s.pc.value ≠ 4095#12 ∧ Executed i (incremented (decodedFor i s)) t)) := by
  obtain ⟨hc, h⟩ := withoutOperand_next h
  have hd : decodedFor i s = s := by simp [decodedFor, hi]
  rw [hd]
  exact ⟨hc, h.imp id fun h => ⟨h.1, hk _ h.2⟩⟩

/-- Everything an instruction can do when it answers a next state: the fault at the top of memory, or its execute phase
on the decoded state. -/
theorem exec_next {i : Instr} {s t : State} (h : exec i s = .next t) :
    s.mstate ≠ .uninitialized ∧
      ((s.pc.value = 4095#12 ∧ t = raiseFatal .maxProgramReached (decodedFor i s)) ∨
       (s.pc.value ≠ 4095#12 ∧ Executed i (incremented (decodedFor i s)) t)) := by
  cases i with
  | jnS x =>
    refine withOperand_executed rfl (fun u hu => ?_) h
    simp only [memWrite_addr] at hu
    injection hu with hu
    simp only [State.setAC_ac, DataRegister.setValue_value, wrap16_succ] at hu
    exact hu.symm
  | load x =>
    refine withOperand_executed rfl (fun u hu => ?_) h
    injection hu with hu
    exact hu.symm
  | store x =>
    refine withOperand_executed rfl (fun u hu => ?_) h
    rw [memWrite_addr] at hu
    injection hu with hu
    exact hu.symm
  | add x =>
    refine withOperand_executed rfl (fun u hu => ?_) h
    injection hu with hu
    rw [sum16_eq] at hu
    exact hu.symm
  | subt x =>
    refine withOperand_executed rfl (fun u hu => ?_) h
    injection hu with hu
    rw [difference16_eq] at hu
    exact hu.symm
  | input =>
    refine withoutOperand_executed rfl (fun u hu => ?_) h
    injection hu with hu
    exact hu.symm
  | output =>
    refine withoutOperand_executed rfl (fun u hu => ?_) h
    injection hu with hu
    exact hu.symm
  | halt =>
    refine withoutOperand_executed rfl (fun u hu => ?_) h
    injection hu with hu
    exact hu.symm
  | skipCond cond =>
    refine withoutOperand_executed rfl (fun u hu => ?_) h
    split at hu
    · injection hu with hu
      exact .inl ⟨by assumption, hu.symm⟩
    · split at hu
      · injection hu with hu
        exact .inr (.inl ⟨by assumption, by assumption, hu.symm⟩)
      · injection hu with hu
        exact .inr (.inr ⟨by assumption, Bool.eq_false_iff.mpr (by assumption), hu.symm⟩)
  | jump x =>
    refine withoutOperand_executed rfl (fun u hu => ?_) h
    injection hu with hu
    exact hu.symm
  | clear =>
    refine withoutOperand_executed rfl (fun u hu => ?_) h
    injection hu with hu
    exact hu.symm
  | addI x =>
    refine withOperand_executed rfl (fun u hu => ?_) h
    rw [pointerStep_eq] at hu
    injection hu with hu
    rw [sum16_eq] at hu
    exact hu.symm
  | jumpI x =>
    refine withOperand_executed rfl (fun u hu => ?_) h
    injection hu with hu
    exact hu.symm
  | loadI x =>
    refine withOperand_executed rfl (fun u hu => ?_) h
    rw [pointerStep_eq] at hu
    injection hu with hu
    exact hu.symm
  | storeI x =>
    refine withOperand_executed rfl (fun u hu => ?_) h
    rw [pointerStep_eq] at hu
    exact (memWrite_next hu).imp (fun h => ⟨h.1, by injection h.2 with h'; exact h'.symm⟩) id

end Sys2Proof.Machine
end

