-- ==== Sys2Proof/Laws/Literals.lean ====
section
/-! SUPPORT. What reading a text of the host answers: digits, fields and literals as the predicates of Safety.lean say. -/

namespace Sys2Proof.Machine

/-- Each pair of a table of Safety.lean is what the reader of that base answers. -/
theorem decimalDigits_read : ∀ p ∈ decimalDigits, decDigit p.1 = some p.2 := by decide

theorem hexDigits_read : ∀ p ∈ hexDigits, hexDigit p.1 = some p.2 := by decide

theorem decDigit_eq_some (c : Char) (d : Nat) : decDigit c = some d ↔ (c, d) ∈ decimalDigits := by
  constructor
  · intro h
    have hc := (Char.ofNat_toNat c).symm
    unfold decDigit at h
    generalize c.toNat = k at *
    subst hc
    split_ifs at h with hk
    obtain ⟨h1, h2⟩ := hk
    obtain rfl := Option.some.inj h
    interval_cases k <;> decide
  · exact decimalDigits_read _

theorem hexDigit_eq_some (c : Char) (d : Nat) : hexDigit c = some d ↔ (c, d) ∈ hexDigits := by
  constructor
  · intro h
    have hc := (Char.ofNat_toNat c).symm
    unfold hexDigit at h
    generalize c.toNat = k at *
    subst hc
    split_ifs at h
    all_goals
      rename_i hk
      obtain ⟨h1, h2⟩ := hk
      obtain rfl := Option.some.inj h
      interval_cases k <;> decide
  · exact hexDigits_read _

/-- Reading digits continues the number read so far, and answers exactly where every character is a digit. -/
theorem digitsFrom_eq_some {digit : Char → Option Nat} {digits : List (Char × Nat)}
    (h : ∀ c d, digit c = some d ↔ (c, d) ∈ digits) (base acc : Nat) (t : Text) (v : Nat) :
    digitsFrom digit base acc t = some v ↔
      ∃ ds, Spells digits t ds ∧ v = acc * base ^ ds.length + placeValue base ds := by
  induction t generalizing acc with
  | nil => simp [digitsFrom, Spells, placeValue, eq_comm]
  | cons c t ih =>
    constructor
    · intro hv
      rw [digitsFrom] at hv
      split at hv
      · rename_i d hd
        obtain ⟨ds, hs, rfl⟩ := (ih _).1 hv
        exact ⟨d :: ds, .cons ((h c d).1 hd) hs, by simp only [List.length_cons, placeValue]; ring⟩
      · exact absurd hv (by simp)
    · rintro ⟨ds, hs, rfl⟩
      cases hs with
      | @cons _ d _ ds hd hs =>
        rw [digitsFrom, (h c d).2 hd]
        exact (ih _).2 ⟨ds, hs, by simp only [List.length_cons, placeValue]; ring⟩

theorem hexDigits_value_lt {c : Char} {d : Nat} (h : (c, d) ∈ hexDigits) : d < 16 := by
  have all : ∀ p ∈ hexDigits, p.2 < 16 := by decide
  exact all _ h

/-- Hex digits denote a number of as many places. -/
theorem Spells.placeValue_lt {t : Text} {ds : List Nat} (h : Spells hexDigits t ds) : placeValue 16 ds < 16 ^ t.length := by
  induction h with
  | nil => simp [placeValue]
  | @cons c d t ds hd hs ih =>
    have hl : ds.length = t.length := (List.Forall₂.length_eq hs).symm
    have := hexDigits_value_lt hd
    rw [placeValue, List.length_cons, pow_succ, hl]
    nlinarith

theorem hexField_eq_some (len : Nat) (t : Text) (v : Nat) : hexField len t = some v ↔ HexField len t v := by
  unfold hexField HexField
  split
  · rename_i hl
    rw [digitsFrom_eq_some hexDigit_eq_some]
    simp [hl]
  · rename_i hl
    simp [hl]

theorem parseHex_eq_some (t : Text) (n : Int) : parseHex t = some n ↔ HexLiteral t n := by
  unfold parseHex HexLiteral
  split
  · rename_i hl
    simp only [Option.map_eq_some_iff, digitsFrom_eq_some hexDigit_eq_some, hl, true_and]
    constructor
    · rintro ⟨_, ⟨ds, hs, rfl⟩, rfl⟩; exact ⟨ds, hs, by simp⟩
    · rintro ⟨ds, hs, rfl⟩; exact ⟨_, ⟨ds, hs, rfl⟩, by simp⟩
  · rename_i hl
    simp only [reduceCtorEq, false_iff]
    rintro ⟨h1, h2, -⟩
    exact hl ⟨h1, h2⟩

/-- No decimal digit is the minus sign. -/
theorem not_spells_minus (t : Text) (ds : List Nat) : ¬Spells decimalDigits ('-' :: t) ds := by
  rintro h
  cases h with
  | @cons _ d _ ds hd hs =>
    have all : ∀ p ∈ decimalDigits, p.1 ≠ '-' := by decide
    exact all _ hd rfl

theorem parseDec_eq_some (t : Text) (n : Int) : parseDec t = some n ↔ DecimalLiteral t n := by
  unfold DecimalLiteral
  cases t with
  | nil => simp [parseDec]
  | cons c t =>
    by_cases hc : c = '-'
    · subst hc
      cases t with
      | nil => simp [parseDec, not_spells_minus]
      | cons b t =>
        simp only [parseDec, if_true, reduceCtorEq, if_false, Option.map_eq_some_iff,
          digitsFrom_eq_some decDigit_eq_some, not_spells_minus, false_and, exists_false, and_false, false_or]
        constructor
        · rintro ⟨_, ⟨ds, hs, rfl⟩, rfl⟩; exact ⟨b :: t, rfl, by simp, ds, hs, by simp⟩
        · rintro ⟨u, hu, -, ds, hs, rfl⟩
          obtain rfl := (List.cons.inj hu).2
          exact ⟨_, ⟨ds, hs, rfl⟩, by simp⟩
    · simp only [parseDec, if_neg hc, Option.map_eq_some_iff, digitsFrom_eq_some decDigit_eq_some]
      constructor
      · rintro ⟨_, ⟨ds, hs, rfl⟩, rfl⟩; exact .inl ⟨by simp, ds, hs, by simp⟩
      · rintro (⟨-, ds, hs, rfl⟩ | ⟨u, hu, -⟩)
        · exact ⟨_, ⟨ds, hs, rfl⟩, by simp⟩
        · exact absurd (List.cons.inj hu).1 hc

theorem parseAscii_eq_some (t : Text) (n : Int) : parseAscii t = some n ↔ AsciiLiteral t n := by
  unfold AsciiLiteral
  cases t with
  | nil => simp [parseAscii]
  | cons c t =>
    simp only [parseAscii]
    split
    · rename_i h
      simp only [Option.some.injEq, List.cons.injEq]
      constructor
      · rintro rfl; exact ⟨c, t, ⟨rfl, rfl⟩, h, rfl⟩
      · rintro ⟨_, _, ⟨rfl, rfl⟩, -, rfl⟩; rfl
    · rename_i h
      simp only [reduceCtorEq, List.cons.injEq, false_iff]
      rintro ⟨_, _, ⟨rfl, rfl⟩, h', -⟩
      exact h h'

/-- What a text denotes in a mode. -/
theorem parseIn_eq_some (m : Mode) (t : Text) (n : Int) : parseIn m t = some n ↔ LiteralIn m t n := by
  cases m with
  | hex => exact parseHex_eq_some t n
  | decimal => exact parseDec_eq_some t n
  | ascii => exact parseAscii_eq_some t n

/-! ### Image records -/

/-- A record is read exactly where its address is three hex digits and its word four. -/
theorem parseRecord_eq_some (p : Nat × ImageRecord) (r : LoadedRecord) : parseRecord p = some r ↔ RecordOf p r := by
  unfold parseRecord RecordOf
  simp only [← hexField_eq_some]
  cases ha : hexField 3 p.2.address with
  | none => simp
  | some a =>
    cases hw : hexField 4 p.2.word with
    | none => simp
    | some w =>
      obtain ⟨la, ds, hs, rfl⟩ := (hexField_eq_some _ _ _).1 ha
      obtain ⟨lw, es, ht, rfl⟩ := (hexField_eq_some _ _ _).1 hw
      have h1 : placeValue 16 ds < 4096 := by simpa [la] using hs.placeValue_lt
      have h2 : placeValue 16 es < 65536 := by simpa [lw] using ht.placeValue_lt
      simp only [Option.some.injEq]
      constructor
      · rintro rfl
        exact ⟨(Nat.mod_eq_of_lt h1).symm, (Nat.mod_eq_of_lt h2).symm, rfl⟩
      · rintro ⟨e1, e2, e3⟩
        obtain ⟨addr, word, line⟩ := r
        simp only at e1 e2 e3
        subst e3
        simp only [e1, e2, BitVec.ofNat_toNat, BitVec.setWidth_eq]

/-- All records are read, in order, or none. -/
theorem parseRecords_eq_some (ps : List (Nat × ImageRecord)) (rs : List LoadedRecord) :
    parseRecords ps = some rs ↔ List.Forall₂ RecordOf ps rs := by
  induction ps generalizing rs with
  | nil => simp [parseRecords, eq_comm]
  | cons p ps ih =>
    constructor
    · intro h
      rw [parseRecords] at h
      split at h
      · rename_i r rs' hr hrs
        simp only [Option.some.injEq] at h
        subst h
        exact .cons ((parseRecord_eq_some p r).1 hr) ((ih rs').1 hrs)
      · exact absurd h (by simp)
    · intro h
      cases h with
      | cons hr hrs => rw [parseRecords, (parseRecord_eq_some _ _).2 hr, (ih _).2 hrs]

end Sys2Proof.Machine
end

