-- ==== Sys2Proof/Laws/Loader.lean ====
section
/-! SUPPORT. What loading does to memory and to the AddressIndex. -/

namespace Sys2Proof.Machine

/-- The free memory after a rejected load is canonical. -/
theorem rejectImage_mem_wf (s : State) : (rejectImage s).mem.wf = true := by
  unfold rejectImage
  exact Memory.wf_tabulate (Config.rejectedLoadWord s.draws)

theorem loadRecords_mem_wf (rs : List LoadedRecord) (s : State) (h : s.mem.wf = true) :
    (loadRecords s rs).mem.wf = true := by
  induction rs generalizing s with
  | nil => exact h
  | cons r rs ih => exact ih (loadRecord s r) (Memory.wf_write r.word h r.addr.isLt)

theorem loadRecords_index_wf (rs : List LoadedRecord) (s : State) (h : indexWf s.addrIndex = true) :
    indexWf (loadRecords s rs).addrIndex = true := by
  induction rs generalizing s with
  | nil => exact h
  | cons r rs ih => exact ih (loadRecord s r) (indexWf_put h r.addr.isLt)

theorem loadRecords_index_ne_nil (rs : List LoadedRecord) (s : State) (h : s.addrIndex ≠ [] ∨ rs ≠ []) :
    (loadRecords s rs).addrIndex ≠ [] := by
  induction rs generalizing s with
  | nil => exact h.elim id fun h => absurd rfl h
  | cons r rs ih => exact ih (loadRecord s r) (.inl (indexPut_ne_nil _ _))

/-- Loading writes memory and the AddressIndex and nothing else. -/
theorem loadRecords_frame (rs : List LoadedRecord) (s : State) :
    ∃ m l, loadRecords s rs = { s with mem := m, addrIndex := l } := by
  induction rs generalizing s with
  | nil => exact ⟨s.mem, s.addrIndex, rfl⟩
  | cons r rs ih =>
    obtain ⟨m, l, h⟩ := ih (loadRecord s r)
    exact ⟨m, l, h⟩

end Sys2Proof.Machine
end

