-- ==== Sys2Proof/Laws/PerInstr.lean ====
section
/-! SUPPORT. Facts about each instruction as syntax, one lemma per constructor: decoding its encoding gives it back. -/

namespace Sys2Proof.Laws.RoundTrip

/-- Decoding the encoding gives the instruction back. -/
def Statement (i : Instr) : Prop := decode (encode i) = .ok i

theorem jnS (x : Addr12) : Statement (.jnS x) := by simp [Statement, encode, decode]
theorem load (x : Addr12) : Statement (.load x) := by simp [Statement, encode, decode]
theorem store (x : Addr12) : Statement (.store x) := by simp [Statement, encode, decode]
theorem add (x : Addr12) : Statement (.add x) := by simp [Statement, encode, decode]
theorem subt (x : Addr12) : Statement (.subt x) := by simp [Statement, encode, decode]
theorem input : Statement .input := by simp [Statement, encode, decode]
theorem output : Statement .output := by simp [Statement, encode, decode]
theorem halt : Statement .halt := by simp [Statement, encode, decode]
theorem skipCond (cond : BitVec 2) : Statement (.skipCond cond) := by simp [Statement, encode, decode]
theorem jump (x : Addr12) : Statement (.jump x) := by simp [Statement, encode, decode]
theorem clear : Statement .clear := by simp [Statement, encode, decode]
theorem addI (x : Addr12) : Statement (.addI x) := by simp [Statement, encode, decode]
theorem jumpI (x : Addr12) : Statement (.jumpI x) := by simp [Statement, encode, decode]
theorem loadI (x : Addr12) : Statement (.loadI x) := by simp [Statement, encode, decode]
theorem storeI (x : Addr12) : Statement (.storeI x) := by simp [Statement, encode, decode]

end Sys2Proof.Laws.RoundTrip
end

