-- ==== Sys2Proof/Tests/Slice0.lean ====
section
/-! SUPPORT. Tests: well-formedness, decoding of words written out from 30_encoding.md R95, single steps with the results of 95_test_vectors.md, and a witness for the hypotheses of every obligation. -/

namespace Sys2Proof.Tests

open Sys2Proof Sys2Proof.Machine

/-! ### Small states -/

/-- Memory with the given cells. -/
def cellsOf (cells : List (Nat × Word16)) : Memory := cells.foldl (fun m c => m.write c.1 c.2) []

/-- The start state of 95_test_vectors.md: Running, RunToCompletion, PC = 010, every mode hex. -/
def start (cells : List (Nat × Word16)) (ac : Word16) : State :=
  { State.reset with
    ac := ⟨ac, .hex⟩, ir := ⟨0#16, .hex⟩, mbr := ⟨0#16, .hex⟩, input := ⟨0#16, .hex⟩, output := ⟨0#16, .hex⟩
    mar := ⟨0#12, .hex⟩, pc := ⟨0x010#12, .hex⟩, mem := cellsOf cells, mstate := .running, ctl := .runToCompletion }

/-- The same with PC elsewhere. -/
def startAt (pc : Addr12) (cells : List (Nat × Word16)) (ac : Word16) : State :=
  { start cells ac with pc := ⟨pc, .hex⟩ }

/-- The same with host commands to come. -/
def asked (s : State) (commands : List Command) : State := { s with agenda := commands.map .command }

/-- A state in some MachineState and controller mode. -/
def inState (m : MState) (ctl : Ctl) : State := { start [] 0x1111#16 with mstate := m, ctl := ctl }

/-- Whether a result is a next state with a property. -/
def holds (r : Result) (p : State → Bool) : Bool :=
  match r with
  | .next s => p s
  | .fault _ => false
  | .refused _ => false

/-- Two steps. -/
def step2 (s : State) : Result :=
  match step s with
  | .next t => step t
  | .fault f => .fault f
  | .refused r => .refused r

/-- Three steps. -/
def step3 (s : State) : Result :=
  match step2 s with
  | .next t => step t
  | .fault f => .fault f
  | .refused r => .refused r

/-- A record with blank label, mnemonic and operand fields. -/
def rec (address word : String) : ImageRecord := ⟨address.toList, [], [], [], word.toList⟩

/-! ### Well-formedness (30_encoding.md R97) -/

theorem test_wellFormed_refuses_cond_11 : (Instr.skipCond 0b11#2).wellFormed = false := by decide
theorem test_wellFormed_accepts_cond_10 : (Instr.skipCond 0b10#2).wellFormed = true := by decide
theorem test_wellFormed_accepts_store_top : (Instr.storeI 0xFFF#12).wellFormed = true := by decide

/-! ### Decoding: opcode in bits 15..12, operand in bits 11..0 (30_encoding.md R90, R91, R95) -/

theorem test_decode_jnS : decode 0b0000000000100000#16 = .ok (.jnS 0x020#12) := by decide
theorem test_decode_load : decode 0b0001000001010000#16 = .ok (.load 0x050#12) := by decide
theorem test_decode_store : decode 0b0010000000110000#16 = .ok (.store 0x030#12) := by decide
theorem test_decode_add : decode 0b0011000000110000#16 = .ok (.add 0x030#12) := by decide
theorem test_decode_subt : decode 0b0100111111111110#16 = .ok (.subt 0xFFE#12) := by decide
theorem test_decode_input : decode 0b0101101010111100#16 = .ok .input := by decide
theorem test_decode_output : decode 0b0110000000000000#16 = .ok .output := by decide
theorem test_decode_halt : decode 0b0111000000000001#16 = .ok .halt := by decide
theorem test_decode_skipCond : decode 0b1000100000000000#16 = .ok (.skipCond 0b10#2) := by decide
theorem test_decode_skipCond_low_bits : decode 0b1000001111111111#16 = .ok (.skipCond 0b00#2) := by decide
theorem test_decode_jump : decode 0b1001000100100011#16 = .ok (.jump 0x123#12) := by decide
theorem test_decode_clear : decode 0b1010111111111111#16 = .ok .clear := by decide
theorem test_decode_addI : decode 0b1011000000110000#16 = .ok (.addI 0x030#12) := by decide
theorem test_decode_jumpI : decode 0b1100000000110000#16 = .ok (.jumpI 0x030#12) := by decide
theorem test_decode_loadI : decode 0b1101000000110000#16 = .ok (.loadI 0x030#12) := by decide
theorem test_decode_storeI : decode 0b1110000000110000#16 = .ok (.storeI 0x030#12) := by decide
theorem test_decode_illegal_first : decode 0b1111000000000000#16 = .error .illegalOpcode := by decide
theorem test_decode_illegal_last : decode 0b1111111111111111#16 = .error .illegalOpcode := by decide
theorem test_encode_skipCond : encode (.skipCond 0b01#2) = 0x8400#16 := by decide
theorem test_tableWord_load : decodeTableWord 16 0x1050 = some (.load 0x050#12) := by decide
theorem test_tableWord_illegal : decodeTableWord 16 0xF123 = none := by decide

/-- The word of withFetchWord is the one the next step runs: 7 is Halt (log 15). -/
theorem test_withFetchWord_halts :
    holds (step (State.reset.withFetchWord 16 0x7000)) (fun s => s.mstate = .haltedNormal ∧ s.pc.value = 1#12) = true := by
  decide

/-! ### One step per vector (95_test_vectors.md, part 2) -/

/-- V-MEM-1. -/
theorem test_jnS : holds (step (start [(0x010, 0x0020#16), (0x020, 0x5555#16)] 0#16)) (fun s =>
    s.mem.read 0x020 = 0x0011#16 ∧ s.ac.value = 0x0021#16 ∧ s.pc.value = 0x021#12 ∧ s.mar.value = 0x020#12
      ∧ s.mbr.value = 0x5555#16) = true := by decide

/-- V-MEM-2. -/
theorem test_jnS_top : holds (step (start [(0x010, 0x0FFF#16)] 0x7777#16)) (fun s =>
    s.mem.read 0xFFF = 0x0011#16 ∧ s.ac.value = 0x1000#16 ∧ s.pc.value = 0#12) = true := by decide

/-- V-MEM-3. -/
theorem test_load : holds (step (start [(0x010, 0x1050#16), (0x050, 0xFFFF#16)] 0#16)) (fun s =>
    s.ac.value = 0xFFFF#16 ∧ s.mbr.value = 0xFFFF#16 ∧ s.mar.value = 0x050#12 ∧ s.pc.value = 0x011#12) = true := by decide

/-- V-MEM-4. -/
theorem test_load_itself : holds (step (start [(0x010, 0x1010#16)] 0#16)) (fun s =>
    s.ac.value = 0x1010#16 ∧ s.mar.value = 0x010#12 ∧ s.mbr.value = 0x1010#16) = true := by decide

/-- V-MEM-5. -/
theorem test_store : holds (step (start [(0x010, 0x2030#16), (0x030, 0x0005#16)] 0x1234#16)) (fun s =>
    s.mem.read 0x030 = 0x1234#16 ∧ s.mbr.value = 0x0005#16 ∧ s.mar.value = 0x030#12) = true := by decide

/-- V-MEM-6: the next cycle fetches the stored word. -/
theorem test_store_next_word : holds (step2 (start [(0x010, 0x2011#16)] 0x7000#16)) (fun s =>
    s.ir.value = 0x7000#16 ∧ s.mstate = .haltedNormal) = true := by decide

/-- V-MEM-8. -/
theorem test_add_wraps : holds (step (start [(0x010, 0x3030#16), (0x030, 1#16)] 0x7FFF#16)) (fun s =>
    s.ac.value = 0x8000#16 ∧ s.mstate = .running) = true := by decide

/-- V-MEM-10. -/
theorem test_add_negative : holds (step (start [(0x010, 0x3030#16), (0x030, 0x8000#16)] 0x8000#16)) (fun s =>
    s.ac.value = 0#16) = true := by decide

/-- V-MEM-11. -/
theorem test_subt : holds (step (start [(0x010, 0x4030#16), (0x030, 7#16)] 5#16)) (fun s =>
    s.ac.value = 0xFFFE#16) = true := by decide

/-- V-MEM-13. -/
theorem test_subt_wraps : holds (step (start [(0x010, 0x4030#16), (0x030, 0x8000#16)] 0#16)) (fun s =>
    s.ac.value = 0x8000#16) = true := by decide

/-- V-IO-1. -/
theorem test_input : holds (step (start [(0x010, 0x5000#16)] 0x1111#16)) (fun s =>
    s.mstate = .blockedOnInput ∧ s.pc.value = 0x011#12 ∧ s.ac.value = 0x1111#16 ∧ s.input.value = 0#16) = true := by decide

/-- V-IO-7. -/
theorem test_output : holds (step (start [(0x010, 0x6000#16)] 0x002A#16)) (fun s =>
    s.output.value = 0x002A#16 ∧ s.outStream = [⟨0x002A#16, .hex⟩]) = true := by decide

/-- V-IO-9. -/
theorem test_halt : holds (step (start [(0x010, 0x7000#16)] 0#16)) (fun s =>
    s.mstate = .haltedNormal ∧ s.pc.value = 0x011#12) = true := by decide

/-- V-IO-10. -/
theorem test_halt_after_fatal :
    holds (step { start [(0x010, 0x7000#16)] 0#16 with fatal := some .illegalOpcode }) (fun s =>
      s.mstate = .haltedAbnormal ∧ s.fatal = some .illegalOpcode ∧ s.pc.value = 0x011#12) = true := by decide

/-- V-BR-3 and V-BR-2. -/
theorem test_skipCond_negative :
    holds (step (start [(0x010, 0x8000#16)] 0x8000#16)) (fun s => s.pc.value = 0x012#12)
      && holds (step (start [(0x010, 0x8000#16)] 0#16)) (fun s => s.pc.value = 0x011#12) = true := by decide

/-- V-BR-13 and V-BR-9. -/
theorem test_skipCond_wraps_and_positive :
    holds (step (startAt 0xFFE#12 [(0xFFE, 0x8400#16)] 0#16)) (fun s => s.pc.value = 0#12 ∧ s.mstate = .running)
      && holds (step (start [(0x010, 0x8800#16)] 0xFFFF#16)) (fun s => s.pc.value = 0x011#12) = true := by decide

/-- V-BR-11. -/
theorem test_skipCond_11 : holds (step (start [(0x010, 0x8FFF#16)] 0#16)) (fun s =>
    s.fatal = some .illegalConditionalOperand ∧ s.mstate = .haltedAbnormal ∧ s.pc.value = 0x011#12) = true := by decide

/-- V-BR-14. -/
theorem test_jump : holds (step (start [(0x010, 0x9123#16)] 0#16)) (fun s =>
    s.pc.value = 0x123#12 ∧ s.mar.value = 0x010#12) = true := by decide

/-- V-BR-15: the next cycle is at the top. -/
theorem test_jump_top : holds (step2 (start [(0x010, 0x9FFF#16)] 0#16)) (fun s =>
    s.fatal = some .maxProgramReached ∧ s.pc.value = 0xFFF#12) = true := by decide

/-- V-BR-18. -/
theorem test_clear : holds (step (start [(0x010, 0xAFFF#16)] 0x8000#16)) (fun s =>
    s.ac.value = 0#16 ∧ s.pc.value = 0x011#12) = true := by decide

/-- V-IND-2. -/
theorem test_addI_masks :
    holds (step (start [(0x010, 0xB030#16), (0x030, 0x1005#16), (0x005, 2#16)] 1#16)) (fun s =>
      s.mar.value = 0x005#12 ∧ s.mbr.value = 2#16 ∧ s.ac.value = 3#16) = true := by decide

/-- V-IND-3. -/
theorem test_addI_wraps :
    holds (step (start [(0x010, 0xB030#16), (0x030, 0x0040#16), (0x040, 1#16)] 0x7FFF#16)) (fun s =>
      s.ac.value = 0x8000#16) = true := by decide

/-- V-IND-4. -/
theorem test_jumpI : holds (step (start [(0x010, 0xC030#16), (0x030, 0x0123#16)] 0#16)) (fun s =>
    s.pc.value = 0x123#12 ∧ s.mar.value = 0x030#12 ∧ s.mbr.value = 0x0123#16) = true := by decide

/-- V-IND-5. -/
theorem test_jumpI_masks : holds (step (start [(0x010, 0xC030#16), (0x030, 0xFFFF#16)] 0#16)) (fun s =>
    s.pc.value = 0xFFF#12 ∧ s.mstate = .running) = true := by decide

/-- V-IND-6. -/
theorem test_loadI :
    holds (step (start [(0x010, 0xD030#16), (0x030, 0x0040#16), (0x040, 0xBEEF#16)] 0#16)) (fun s =>
      s.mar.value = 0x040#12 ∧ s.mbr.value = 0xBEEF#16 ∧ s.ac.value = 0xBEEF#16) = true := by decide

/-- V-IND-7. -/
theorem test_loadI_masks : holds (step (start [(0x010, 0xD030#16), (0x030, 0xF030#16)] 0#16)) (fun s =>
    s.mar.value = 0x030#12 ∧ s.ac.value = 0xF030#16) = true := by decide

/-- V-IND-8. -/
theorem test_storeI :
    holds (step (start [(0x010, 0xE030#16), (0x030, 0x0040#16), (0x040, 0x0050#16)] 0x0063#16)) (fun s =>
      s.mem.read 0x050 = 0x0063#16 ∧ s.mem.read 0x040 = 0x0050#16 ∧ s.mem.read 0x030 = 0x0040#16
        ∧ s.mar.value = 0x040#12 ∧ s.mbr.value = 0x0050#16) = true := by decide

/-- V-IND-9. -/
theorem test_storeI_out_of_range :
    holds (step (start [(0x010, 0xE030#16), (0x030, 0x0040#16), (0x040, 0x1000#16)] 0x0063#16)) (fun s =>
      s.fatal = some .addressOutOfRange ∧ s.mar.value = 0x040#12 ∧ s.mbr.value = 0x1000#16 ∧ s.pc.value = 0x011#12
        ∧ s.mem.read 0 = 0#16) = true := by decide

/-- V-CYC-2 and V-CYC-4. -/
theorem test_top_of_memory :
    holds (step (startAt 0xFFF#12 [(0xFFF, 0xFFFF#16)] 0#16)) (fun s =>
        s.fatal = some .illegalOpcode ∧ s.pc.value = 0xFFF#12)
      && holds (step (startAt 0xFFF#12 [(0xFFF, 0x1050#16), (0x050, 7#16)] 0#16)) (fun s =>
        s.fatal = some .maxProgramReached ∧ s.mar.value = 0x050#12 ∧ s.mbr.value = 7#16 ∧ s.ac.value = 0#16) = true := by
  decide

/-! ### Host commands (95_test_vectors.md V-IO, V-HOST, E1) -/

/-- V-IO-2. -/
theorem test_supply :
    holds (step (asked (inState .blockedOnInput .runToCompletion) [.supply 0x8000#16])) (fun s =>
      s.input.value = 0x8000#16 ∧ s.ac.value = 0x8000#16 ∧ s.mstate = .running) = true := by decide

/-- V-IO-5 and V-IO-4. -/
theorem test_abandoned_input :
    holds (step (asked (inState .blockedOnInput .runToCompletion) [.inputInvalid])) (fun s =>
        s.fatal = some .invalidRegisterValue ∧ s.mstate = .haltedAbnormal ∧ s.ac.value = 0x1111#16)
      && holds (step (asked (inState .blockedOnInput .runToCompletion) [.stop])) (fun s =>
        s.fatal = none ∧ s.mstate = .haltedByUser ∧ s.ac.value = 0x1111#16) = true := by decide

/-- V-HOST-1, V-HOST-5 and V-HOST-8: refused. -/
theorem test_refused :
    holds (step (asked (inState .noProgramLoaded .singleStep) [.run .toCompletion])) (fun s =>
        s.mstate = .noProgramLoaded ∧ s.replies = [.refused])
      && holds (step (asked (inState .running .runToCompletion) [.step])) (fun s => s.replies = [.refused])
      && holds (step (asked (inState .haltedByUser .singleStep) [.run .toCompletion])) (fun s =>
        s.mstate = .haltedByUser) = true := by decide

/-- E3: load, then step. -/
theorem test_load_then_step :
    holds (step2 (asked State.reset [.load (.records [rec "000" "1050", rec "050" "0007"]), .step])) (fun s =>
      s.ac.value = 7#16 ∧ s.pc.value = 1#12 ∧ s.mstate = .running ∧ s.ir.value = 0x1050#16 ∧ s.mar.value = 0x050#12
        ∧ s.ctl = .singleStep ∧ s.cursor = some 0) = true := by decide

/-- V-HOST-10 with its blank line, whose line number is counted (log 10). -/
theorem test_load_skips_blank :
    holds (step (asked State.reset [.load (.records [rec "000" "1005", rec " " "zz", rec "005" "0009"])])) (fun s =>
      s.mem = [(0, 0x1005#16), (5, 9#16)] ∧ s.pc.value = 0#12 ∧ s.mstate = .haltedNormal
        ∧ s.addrIndex = [⟨0, 0, false⟩, ⟨5, 2, false⟩]) = true := by decide

/-- V-HOST-11 and V-HOST-12. -/
theorem test_load_order :
    holds (step (asked State.reset [.load (.records [rec "100" "7000", rec "004" "1111", rec "004" "2222"])])) (fun s =>
      s.pc.value = 0x100#12 ∧ s.mem.read 4 = 0x2222#16) = true := by decide

/-- V-HOST-13 and V-HOST-15. -/
theorem test_load_rejected :
    holds (step (asked State.reset [.load (.records [rec "" "1234"])])) (fun s =>
        s.mstate = .noProgramLoaded ∧ s.replies = [.loadRejected .invalidProgramImage] ∧ s.fatal = none)
      && holds (step (asked State.reset [.load (.records [rec "000" "12G4"])])) (fun s =>
        s.mstate = .noProgramLoaded ∧ s.replies = [.loadRejected .invalidProgramImage]) = true := by decide

/-- E1. -/
theorem test_masked_writes :
    holds (step3 (asked (start [] 0#16) [.writeAddr .pc (-1), .writeAddr .mar 70000, .writeAddr .pc (-4097)])) (fun s =>
      s.pc.value = 0xFFF#12 ∧ s.mar.value = 0x170#12) = true := by decide

/-- V-HOST-18, V-HOST-19 and V-HOST-20. -/
theorem test_register_text :
    holds (step (asked (start [] 0#16) [.writeRegText (.addr .pc) "1234".toList])) (fun s => s.pc.value = 0x234#12)
      && holds (step (asked (start [] 0#16) [.writeRegText (.data .ac) "12345".toList])) (fun s =>
        s.replies = [.invalidLiteral] ∧ s.ac.value = 0#16)
      && holds (step2 (asked (start [] 0#16) [.setMode (.data .ac) .ascii, .writeRegText (.data .ac) "A".toList])) (fun s =>
        s.ac.value = 0x0041#16) = true := by decide

/-- V-HOST-16 and V-HOST-17. -/
theorem test_decimal_text :
    holds (step2 (asked (start [] 0#16) [.setMode (.data .ac) .decimal, .writeRegText (.data .ac) "-1".toList])) (fun s =>
        s.ac.value = 0xFFFF#16)
      && holds (step2 (asked (start [] 0#16) [.setMode (.data .ac) .decimal, .writeRegText (.data .ac) "40000".toList]))
        (fun s => s.ac.value = 0#16 ∧ s.replies = [.accepted, .invalidLiteral]) = true := by decide

/-- P5 of part 3, its last two moves in small: a flagged line runs, then the machine pauses. -/
theorem test_breakpoint :
    holds (step { start [(0x010, 0x3005#16), (0x005, 1#16)] 2#16 with
        ctl := .runToBreakpoint, addrIndex := [⟨0x010, 3, true⟩] }) (fun s =>
      s.mstate = .paused ∧ s.ac.value = 3#16 ∧ s.pc.value = 0x011#12 ∧ s.cursor = some 3) = true := by decide

/-- V-HOST-22 and V-HOST-23. -/
theorem test_breakpoint_commands :
    holds (step (asked (start [] 0#16) [.setBreakpoint 7#12 true])) (fun s => s.replies = [.refused])
      && holds (step (asked { start [] 0#16 with addrIndex := [⟨7, 0, true⟩] } [.clearBreakpoints])) (fun s =>
        s.addrIndex = [⟨7, 0, false⟩]) = true := by decide

/-! ### Witnesses: states and operands that meet the hypotheses of each obligation -/

/-- The hypotheses most instructions share: Running, PC not at the top, canonical memory. -/
def Ready (s : State) : Prop := s.mstate = .running ∧ s.pc.value ≠ 4095#12 ∧ s.mem.wf = true

/-- Ready at both ends of the range of PC that an instruction can complete at. -/
theorem witness_ready : Ready (startAt 0#12 [(0, 1#16)] 0#16) ∧ Ready (startAt 0xFFE#12 [(0xFFF, 1#16)] 0#16) := by
  unfold Ready; decide

theorem witness_DecodingIsTotal :
    (0xEFFF#16).toNat < 0xF000 ∧ 0xF000 ≤ (0xF000#16).toNat ∧ 0x8C00 ≤ (0x8C00#16).toNat ∧ (0x8FFF#16).toNat ≤ 0x8FFF := by
  decide

theorem witness_EncodeAgreesOnTheBitsRead :
    decode 0xEFFF#16 = .ok (.storeI 0xFFF#12) ∧ operandOf (.storeI 0xFFF#12) ≠ none
      ∧ decode 0x9000#16 = .ok (.jump 0#12) ∧ decode 0x8BFF#16 = .ok (.skipCond 0b10#2) := by decide

theorem witness_IgnoredBitsDoNotMatter :
    (0x5000#16).toNat / 4096 = (0x5FFF#16).toNat / 4096 ∧ (0x5000#16).toNat / 4096 = 5
      ∧ (0x6000#16).toNat / 4096 = 6 ∧ (0x7FFF#16).toNat / 4096 = 7 ∧ (0xAFFF#16).toNat / 4096 = 10
      ∧ (0x8400#16).toNat / 1024 = (0x87FF#16).toNat / 1024 ∧ (0x8400#16).toNat / 4096 = 8 := by decide

theorem witness_StepRunsTheDecodedInstruction :
    CycleRuns (start [(0x010, 0x1050#16)] 0#16)
      ∧ decode ((start [(0x010, 0x1050#16)] 0#16).cell 0x010#12) = .ok (.load 0x050#12) := by
  unfold CycleRuns; decide

theorem witness_OpcodeFifteenHaltsTheMachine :
    CycleRuns (start [(0x010, 0xF000#16)] 0#16) ∧ 0xF000 ≤ ((start [(0x010, 0xF000#16)] 0#16).cell 0x010#12).toNat
      ∧ CycleRuns (startAt 0xFFF#12 [(0xFFF, 0xFFFF#16)] 0#16)
      ∧ 0xF000 ≤ ((startAt 0xFFF#12 [(0xFFF, 0xFFFF#16)] 0#16).cell 0xFFF#12).toNat := by
  unfold CycleRuns; decide

theorem witness_EveryInstructionFaultsAtTheTop :
    (startAt 0xFFF#12 [] 0#16).mstate = .running ∧ (startAt 0xFFF#12 [] 0#16).pc.value = 4095#12 := by decide

theorem witness_NoCycleCompletesAtTheTop :
    CycleRuns (startAt 0xFFF#12 [(0xFFF, 0xF000#16)] 0#16) ∧ CycleRuns (startAt 0xFFF#12 [(0xFFF, 0xEFFF#16)] 0#16)
      ∧ (startAt 0xFFF#12 [] 0#16).pc.value = 4095#12 := by
  unfold CycleRuns; decide

theorem witness_JnSSavesTheReturnAddress : Ready (start [(0x020, 0x5555#16)] 0#16) := by unfold Ready; decide
theorem witness_LoadReadsTheCell : Ready (start [(0x050, 7#16)] 0#16) := by unfold Ready; decide
theorem witness_StoreWritesTheCell : Ready (start [(0x030, 5#16)] 0x1234#16) := by unfold Ready; decide
theorem witness_AddWrapsTheSignedSum : Ready (start [(0x030, 1#16)] 0x7FFF#16) := by unfold Ready; decide
theorem witness_SubtWrapsTheSignedDifference : Ready (start [(0x030, 0x8000#16)] 0#16) := by unfold Ready; decide
theorem witness_OutputEmitsOneRecord : Ready (start [] 0x002A#16) := by unfold Ready; decide
theorem witness_HaltReadsTheFatalFlag :
    Ready (start [] 0#16) ∧ Ready { start [] 0#16 with fatal := some .illegalOpcode } := by unfold Ready; decide
theorem witness_JumpGoesToItsOperand : Ready (startAt 0#12 [] 0#16) := by unfold Ready; decide
theorem witness_ClearZeroesAC : Ready (start [] 0x1234#16) := by unfold Ready; decide
theorem witness_AddIAddsThroughAPointer : Ready (start [(0x030, 0x1005#16)] 1#16) := by unfold Ready; decide
theorem witness_JumpIGoesThroughAPointer : Ready (start [(0x030, 0xFFFF#16)] 0#16) := by unfold Ready; decide
theorem witness_LoadIReadsThroughAPointer : Ready (start [(0x030, 0xF030#16)] 0#16) := by unfold Ready; decide

/-- Input itself, and the suspended machine with and without a move of the agenda. -/
theorem witness_InputSuspendsTheMachine :
    Ready (start [] 0x1111#16)
      ∧ (inState .blockedOnInput .runToBreakpoint).mstate = .blockedOnInput
      ∧ nextCommand (inState .blockedOnInput .runToBreakpoint) = none
      ∧ nextCommand { inState .blockedOnInput .singleStep with agenda := [.letRun] } = none := by
  unfold Ready; decide

/-- In SingleStep, in RunToCompletion, and in RunToBreakpoint on a flagged line. -/
theorem witness_SupplyCompletesTheInput :
    Gives (asked (inState .blockedOnInput .singleStep) [.supply 1#16]) (.supply 1#16) []
      ∧ Gives (asked (inState .blockedOnInput .runToCompletion) [.supply 1#16]) (.supply 1#16) []
      ∧ (asked (inState .blockedOnInput .runToCompletion) [.supply 1#16]).mstate = .blockedOnInput
      ∧ onBreakpoint { inState .blockedOnInput .runToBreakpoint with addrIndex := [⟨0, 0, true⟩] } = true := by
  unfold Gives; decide

/-- The three outcomes: condition 11, a condition that holds, one that does not. -/
theorem witness_SkipCondTestsTheSignOfAC :
    Ready (start [] 0x8000#16) ∧ (0x8000#16).toInt < 0 ∧ ¬(0#16).toInt < 0 ∧ (0#16).toInt = 0 ∧ 0 < (0x7FFF#16).toInt
      ∧ ¬0 < (0xFFFF#16).toInt ∧ (0b10#2 : BitVec 2) ≠ 0b11#2 := by
  unfold Ready; decide

/-- The highest second pointer in range. -/
theorem witness_StoreIStoresThroughTwoPointers :
    Ready (start [(0x030, 0x1040#16), (0x040, 0x0FFF#16)] 1#16)
      ∧ ((start [(0x030, 0x1040#16), (0x040, 0x0FFF#16)] 1#16).cell
          (((start [(0x030, 0x1040#16), (0x040, 0x0FFF#16)] 1#16).cell 0x030#12).setWidth 12)).toNat ≤ 4095 := by
  unfold Ready; decide

/-- The second pointers next to the range, on both sides: 1000 and FFFF. -/
theorem witness_StoreIOutOfRangeIsFatal :
    Ready (start [(0x030, 0x0040#16), (0x040, 0x1000#16)] 1#16)
      ∧ 4095 < ((start [(0x030, 0x0040#16), (0x040, 0x1000#16)] 1#16).cell
          (((start [(0x030, 0x0040#16), (0x040, 0x1000#16)] 1#16).cell 0x030#12).setWidth 12)).toInt
      ∧ ((start [(0x030, 0x0040#16), (0x040, 0xFFFF#16)] 1#16).cell
          (((start [(0x030, 0x0040#16), (0x040, 0xFFFF#16)] 1#16).cell 0x030#12).setWidth 12)).toInt < 0 := by
  unfold Ready; decide

theorem witness_FormsThatStoreNothingKeepMemory :
    storeAddress (.load 0x050#12) (start [] 0#16) = none
      ∧ holds (exec (.load 0x050#12) (start [] 0#16)) (fun _ => true) = true
      ∧ storeAddress (.skipCond 0b11#2) (start [] 0#16) = none
      ∧ holds (exec (.skipCond 0b11#2) (start [] 0#16)) (fun _ => true) = true := by decide

theorem witness_StoringFormsChangeOneCell :
    storeAddress (.store 0xFFF#12) (start [] 1#16) = some 4095
      ∧ holds (exec (.store 0xFFF#12) (start [] 1#16)) (fun _ => true) = true
      ∧ storeAddress (.storeI 0x030#12) (start [(0x030, 0x0040#16), (0x040, 0x1000#16)] 1#16) = some 4096
      ∧ storeAddress (.storeI 0x030#12) (start [(0x030, 0x0040#16), (0x040, 0xFFFF#16)] 1#16) = some (-1) := by decide

theorem witness_InstructionsKeepTheOtherRegisters :
    holds (exec (.store 0x030#12) (start [] 1#16)) (fun _ => true) = true ∧ writesAC (.store 0x030#12) = false
      ∧ operandOf .output = none ∧ holds (exec .output (start [] 1#16)) (fun _ => true) = true
      ∧ followsPointer (.store 0x030#12) = false ∧ mayRaise (.store 0x030#12) = false
      ∧ writesMState (.store 0x030#12) = false := by decide

/-- A state that meets the invariant and has a step: the machine after reset, about to load a program. -/
theorem witness_StepKeepsTheInvariant :
    Inv (asked State.reset [.load (.records [rec "000" "7000"])])
      ∧ holds (step (asked State.reset [.load (.records [rec "000" "7000"])])) (fun _ => true) = true := by
  refine ⟨⟨by decide, by decide, by decide, by decide, by decide, ?_⟩, by decide⟩
  intro line h
  exact absurd h (by simp [asked, State.reset])

/-- Two states that differ in a mode only. -/
theorem witness_DisplayModesNeverAffectExecution :
    withoutModes (start [] 1#16) = withoutModes { start [] 1#16 with ac := ⟨1#16, .ascii⟩ }
      ∧ readsMode (nextCommand (start [] 1#16)) = false ∧ (start [] 1#16).mstate ≠ .uninitialized
      ∧ holds (step (start [] 1#16)) (fun _ => true) = true := by decide

theorem witness_OnlyResetClearsTheFatalFlag :
    holds (step (asked { start [] 0#16 with fatal := some .illegalOpcode } [.reset])) (fun s => s.fatal = none) = true := by
  decide

theorem witness_OnlyStoresAndLoadsWriteMemory :
    holds (step (start [(0x010, 0x2030#16)] 7#16)) (fun s => s.mem.read 0x030 = 7#16) = true
      ∧ (start [(0x010, 0x2030#16)] 7#16).mem.read 0x030 = 0#16 := by decide

theorem witness_OutputStreamOnlyGrows :
    holds (step (start [(0x010, 0x6000#16)] 7#16)) (fun s => s.outStream = [⟨7#16, .hex⟩]) = true
      ∧ nextCommand (start [(0x010, 0x6000#16)] 7#16) = none := by decide

theorem witness_WritersOfIRAndINPUT :
    holds (step (start [(0x010, 0x6000#16)] 7#16)) (fun s => s.ir.value ≠ 0#16) = true
      ∧ holds (step (asked (inState .blockedOnInput .singleStep) [.supply 7#16])) (fun s => s.input.value ≠ 0#16) = true := by
  decide

theorem witness_NoCycleRunsOutsideRunning :
    nextCommand (inState .running .singleStep) = none ∧ (inState .running .singleStep).ctl = .singleStep
      ∧ (inState .paused .runToBreakpoint).mstate ≠ .running := by decide

/-- A command no row accepts, and for pause, stop, supply and input_invalid a state next to the ones that accept them. -/
theorem witness_RefusedCommandsChangeNothing :
    Gives (asked (inState .haltedByUser .singleStep) [.step]) .step []
      ∧ ¬AcceptedIn .step (inState .haltedByUser .singleStep)
      ∧ ¬AcceptedIn (.setBreakpoint 7#12 true) (inState .paused .singleStep)
      ∧ Gives (asked (inState .blockedOnInput .singleStep) [.pause]) .pause []
      ∧ (inState .blockedOnInput .singleStep).mstate ≠ .running
      ∧ Gives (asked (inState .haltedNormal .singleStep) [.stop]) .stop []
      ∧ Gives (asked (inState .running .runToCompletion) [.supply 1#16]) (.supply 1#16) []
      ∧ Gives (asked (inState .running .runToCompletion) [.inputInvalid]) .inputInvalid []
      ∧ (inState .running .runToCompletion).mstate ≠ .blockedOnInput
      ∧ Gives (asked (inState .running .runToCompletion) [.run .toBreakpoint]) (.run .toBreakpoint) []
      ∧ (inState .running .runToCompletion).ctl ≠ .singleStep := by
  refine ⟨rfl, ?_, ?_, rfl, by decide, rfl, rfl, rfl, by decide, rfl, by decide⟩
  · simp [AcceptedIn, resumes, inState]
  · simp [AcceptedIn, inState, start, State.reset, indexFind]

theorem witness_ResetGivesTheResetState :
    Gives (asked (inState .uninitialized .singleStep) [.reset]) .reset []
      ∧ Gives (asked (inState .blockedOnInput .singleStep) [.reset]) .reset [] := by
  unfold Gives; decide

/-- The image of E5. -/
theorem witness_AcceptedLoadPlacesTheProgram :
    Gives (asked State.reset [.load (.records [rec "FFF" "7000"])]) (.load (.records [rec "FFF" "7000"])) []
      ∧ State.reset.mstate ≠ .uninitialized
      ∧ judgeImage (.records [rec "FFF" "7000"]) = .ok [⟨0xFFF#12, 0x7000#16, 0⟩]
      ∧ addressedRecords [rec "\t" "", rec "FFF" "7000"] = [(1, rec "FFF" "7000")]
      ∧ RecordOf (1, rec "FfF" "12aB") ⟨0xFFF#12, 0x12AB#16, 1⟩ := by
  refine ⟨rfl, by decide, rfl, by decide, ⟨by decide, [15, 15, 15], ?_, by decide⟩,
    ⟨by decide, [1, 2, 10, 11], ?_, by decide⟩, rfl⟩ <;>
    (unfold Spells; decide)

/-- No addressed record, a malformed one, and a machine that is asked to load such an image. -/
theorem witness_RejectedLoadLeavesNoProgram :
    addressedFrom 0 [rec "" "7000"] = []
      ∧ (∃ p ∈ addressedFrom 0 [rec "0000" "7000"], parseRecord p = none)
      ∧ judgeImage (.records [rec "" "7000"]) = .error .invalidProgramImage
      ∧ Gives (asked State.reset [.load .unreadable]) (.load .unreadable) []
      ∧ judgeImage .unreadable = .error .invalidProgramImage := by
  refine ⟨rfl, ⟨(0, rec "0000" "7000"), by decide, by decide⟩, rfl, rfl, rfl⟩

/-- 4097 addressed records, all well formed. -/
theorem witness_RejectedLoadLeavesNoProgram_overfull :
    (∀ p ∈ addressedFrom 0 (List.replicate 4097 (rec "000" "7000")), parseRecord p ≠ none)
      ∧ 4096 < (addressedFrom 0 (List.replicate 4097 (rec "000" "7000"))).length := by
  have all : ∀ (n line : Nat) (p : Nat × ImageRecord),
      p ∈ addressedFrom line (List.replicate n (rec "000" "7000")) → p.2 = rec "000" "7000" := by
    intro n
    induction n with
    | zero => intro line p h; simp [addressedFrom] at h
    | succ n ih =>
      intro line p h
      rw [List.replicate_succ] at h
      have hb : (rec "000" "7000").isBlank = false := by decide
      simp only [addressedFrom, hb, Bool.false_eq_true, if_false, List.mem_cons] at h
      rcases h with rfl | h
      · rfl
      · exact ih _ _ h
  have len : ∀ n line : Nat, (addressedFrom line (List.replicate n (rec "000" "7000"))).length = n := by
    intro n
    induction n with
    | zero => intro line; rfl
    | succ n ih =>
      intro line
      rw [List.replicate_succ]
      have hb : (rec "000" "7000").isBlank = false := by decide
      simp only [addressedFrom, hb, Bool.false_eq_true, if_false, List.length_cons, ih]
  refine ⟨fun p hp => ?_, by rw [len]; decide⟩
  have h := all 4097 0 p hp
  have hf : hexField 3 (rec "000" "7000").address = some 0 := by decide
  have hw : hexField 4 (rec "000" "7000").word = some 0x7000 := by decide
  rw [parseRecord, h, hf, hw]
  exact Option.some_ne_none _

theorem witness_WriteRegSetsOneRegister :
    (asked (start [] 0#16) [.writeAddr .pc (-1)]).mstate ≠ .uninitialized
      ∧ Gives (asked (start [] 0#16) [.writeAddr .pc (-1)]) (.writeAddr .pc (-1)) []
      ∧ Gives (asked (start [] 0#16) [.writeAddr .mar 4096]) (.writeAddr .mar 4096) []
      ∧ Gives (asked (start [] 0#16) [.writeData .ac 0x8000#16]) (.writeData .ac 0x8000#16) []
      ∧ Gives (asked (start [] 0#16) [.writeData .ir 1#16]) (.writeData .ir 1#16) []
      ∧ Gives (asked (start [] 0#16) [.writeData .mbr 1#16]) (.writeData .mbr 1#16) []
      ∧ Gives (asked (start [] 0#16) [.writeData .input 1#16]) (.writeData .input 1#16) []
      ∧ Gives (asked (start [] 0#16) [.writeData .output 0xFFFF#16]) (.writeData .output 0xFFFF#16) [] := by
  unfold Gives; decide

/-- Texts that are no literal: the empty one in every mode, a letter beyond F, a lone minus sign; and the value of each place. -/
theorem witness_RegisterTextIsParsedInItsMode_values :
    (∀ n, ¬LiteralIn .hex ['1', 'G'] n) ∧ (∀ n, ¬LiteralIn .decimal ['-'] n) ∧ (∀ n, ¬LiteralIn .ascii [] n)
      ∧ LiteralIn .hex ['1', 'f'] 31 ∧ LiteralIn .decimal ['-', '1', '2'] (-12) := by
  refine ⟨?_, ?_, ?_, ⟨by decide, by decide, [1, 15], by unfold Spells; decide, by decide⟩,
    .inr ⟨['1', '2'], rfl, by decide, [1, 2], by unfold Spells; decide, by decide⟩⟩
  · intro n h
    exact absurd ((parseIn_eq_some _ _ n).2 h) (by simp [show parseIn .hex ['1', 'G'] = none by decide])
  · intro n h
    exact absurd ((parseIn_eq_some _ _ n).2 h) (by simp [show parseIn .decimal ['-'] = none by decide])
  · rintro n ⟨c, rest, h, -⟩
    exact absurd h (by simp)

theorem witness_RegisterTextIsParsedInItsMode :
    Gives (asked (start [] 0#16) [.writeRegText (.data .ac) ['F']]) (.writeRegText (.data .ac) ['F']) []
      ∧ parseDataLiteral .hex ['F'] = some 15 ∧ parseDataLiteral .hex [] = none
      ∧ Gives (asked (start [] 0#16) [.writeRegText (.addr .pc) ['-']]) (.writeRegText (.addr .pc) ['-']) []
      ∧ parseAddrLiteral .decimal ['-'] = none ∧ parseAddrLiteral .decimal ['-', '1'] = some (-1)
      ∧ parseDataLiteral .decimal "-32768".toList = some (-32768) ∧ parseDataLiteral .decimal "32768".toList = none
      ∧ parseDataLiteral .hex "FFFF".toList = some 0xFFFF ∧ parseDataLiteral .ascii ['A', 'B'] = some 65 := by
  unfold Gives; decide

theorem witness_SetModeKeepsEveryValue :
    Gives (asked (start [] 0#16) [.setMode (.addr .pc) .ascii]) (.setMode (.addr .pc) .ascii) []
      ∧ (start [] 0#16).mstate ≠ .uninitialized := by
  unfold Gives; decide

theorem witness_BreakpointCommandsSetFlagsOnly :
    Gives (asked (start [] 0#16) [.setBreakpoint 7#12 true]) (.setBreakpoint 7#12 true) []
      ∧ indexFind (start [] 0#16).addrIndex 7 = none
      ∧ indexFind [⟨7, 0, false⟩] (7#12).toNat = some (⟨7, 0, false⟩ : IndexEntry)
      ∧ Gives (asked (start [] 0#16) [.clearBreakpoints]) .clearBreakpoints [] := by
  unfold Gives; decide

/-- On a flagged line and off it. -/
theorem witness_BreakpointPausesAfterTheInstruction :
    CycleRuns { start [(0x010, 0xA000#16)] 2#16 with ctl := .runToBreakpoint, addrIndex := [⟨0x010, 3, true⟩] }
      ∧ decode ((start [(0x010, 0xA000#16)] 2#16).cell 0x010#12) = .ok .clear
      ∧ holds (exec .clear (fetched { start [(0x010, 0xA000#16)] 2#16 with ctl := .runToBreakpoint })) (fun u =>
          u.mstate = .running) = true
      ∧ (indexFind [⟨0x010, 3, true⟩] 0x010).isSome = true
      ∧ CycleRuns (start [(0x010, 0xA000#16)] 2#16) ∧ (start [] 2#16).ctl ≠ .runToBreakpoint := by
  unfold CycleRuns; decide

theorem witness_RunAndStopTouchNoRegister :
    Gives (asked (inState .paused .singleStep) [.run .toBreakpoint]) (.run .toBreakpoint) []
      ∧ resumes .singleStep .paused ∧ resumes .singleStep .running
      ∧ Gives (asked (inState .blockedOnInput .singleStep) [.stop]) .stop [] := by
  unfold Gives resumes; decide

theorem witness_PauseChangesNoRegister :
    Gives (asked (inState .running .singleStep) [.pause]) .pause []
      ∧ (asked (inState .running .singleStep) [.pause]).mstate = .running := by
  unfold Gives; decide

theorem witness_InputInvalidAbandonsTheInput :
    Gives (asked (inState .blockedOnInput .singleStep) [.inputInvalid]) .inputInvalid []
      ∧ (asked (inState .blockedOnInput .singleStep) [.inputInvalid]).mstate = .blockedOnInput := by
  unfold Gives; decide

theorem witness_StepCommandRunsOneCycle :
    Gives (asked (inState .haltedAbnormal .singleStep) [.step]) .step [] ∧ resumes .singleStep .haltedAbnormal
      ∧ decode ((inState .haltedAbnormal .singleStep).cell 0x010#12) = .ok (.jnS 0#12)
      ∧ 0xF000 ≤ ((start [(0x010, 0xF000#16)] 0#16).cell 0x010#12).toNat
      ∧ Gives (asked { start [(0x010, 0xF000#16)] 0#16 with mstate := .paused } [.step]) .step []
      ∧ resumes .runToCompletion .paused := by
  unfold Gives resumes; decide

/-- The subroutine call of P2 and a state its return is made in. -/
theorem witness_JumpIReturnsFromJnS :
    Ready (start [] 0#16)
      ∧ holds (exec (.jnS 0x005#12) (start [] 0#16)) (fun t =>
          t.mstate = .running ∧ t.pc.value ≠ 4095#12 ∧ t.cell 0x005#12 = 0x0011#16) = true := by
  unfold Ready; decide

theorem witness_LaterFetchesSeeTheStore :
    Ready (start [] 0x7000#16) ∧ storeAddress (.store 0x011#12) (start [] 0x7000#16) = some 17
      ∧ holds (exec (.store 0x011#12) (start [] 0x7000#16)) (fun t => (t.pc.value.toNat : Int) = 17) = true := by
  unfold Ready; decide

theorem witness_ReadReturnsTheLastWrite :
    (0 : Int) ≤ 4095 ∧ (start [(0xFFF, 1#16)] 0#16).mem.wf = true := by decide

/-- Both ends of the range and the addresses next to it. -/
theorem witness_MemoryAccessChecksItsRange :
    (start [(0xFFF, 1#16)] 0#16).mem.wf = true ∧ (0 : Int) ≤ 4095 ∧ (-1 : Int) < 0 ∧ (4095 : Int) < 4096 := by decide

theorem witness_MemoriesWithEqualCellsAreEqual :
    Memory.wf (cellsOf [(0, 1#16), (0xFFF, 2#16)]) = true
      ∧ (∀ a, Memory.read (cellsOf [(0xFFF, 2#16), (0, 1#16)]) a = Memory.read (cellsOf [(0, 1#16), (0xFFF, 2#16)]) a) :=
  ⟨by decide, fun _ => rfl⟩

theorem witness_NothingIsReadBeforeConstruction :
    (inState .uninitialized .singleStep).mstate = .uninitialized ∧ (inState .paused .singleStep).mstate ≠ .uninitialized
      ∧ Gives (asked (inState .uninitialized .singleStep) [.load .unreadable]) (.load .unreadable) [] := by
  unfold Gives; decide

theorem witness_LoadThenRunReachesTheFirstRecord :
    judgeImage (.records [rec "010" "7000", rec "010" "A000"]) = .ok [⟨0x010#12, 0x7000#16, 0⟩, ⟨0x010#12, 0xA000#16, 1⟩]
      ∧ lastAt [⟨0x010#12, 0x7000#16, 0⟩, ⟨0x010#12, 0xA000#16, 1⟩] 0x010 = some ⟨0x010#12, 0xA000#16, 1⟩
      ∧ decode 0xA000#16 = .ok .clear := by
  refine ⟨rfl, by decide, by decide⟩

end Sys2Proof.Tests
end

section
/-! SUPPORT. What one step can do, once: the moves of the host and the cycle as cases of a next state, and what each of them leaves unchanged. -/

namespace Sys2Proof.Machine

/-! ### The cases of a step -/

/-- The state once the host's next move is taken from the agenda. -/
def moveTaken (s : State) : State := { s with agenda := s.agenda.tail }

@[simp] theorem accepts_moveTaken (c : Command) (s : State) : accepts c (moveTaken s) = accepts c s := by
  cases c <;> rfl

/-- Everything a step from `s` can do when it answers `t`: the machine waits, refuses a command, obeys one other than
`step`, or runs a cycle, of its own or for `step`. -/
inductive Steps (s t : State) : Prop where
  | waits (hn : nextCommand s = none) (ht : t = moveTaken s)
  | refuses (c : Command) (hn : nextCommand s = some c) (ha : accepts c s = false)
      (ht : t = (moveTaken s).tell .refused)
  | obeys (c : Command) (hn : nextCommand s = some c) (hs : c ≠ .step) (ha : accepts c s = true)
      (ht : t = (commandEffect c (moveTaken s)).1.tell (commandEffect c (moveTaken s)).2)
  | runsCycle (hn : nextCommand s = none) (hr : s.mstate = .running) (hc : cycle (moveTaken s) = .next t)
  | stepsCycle (hn : nextCommand s = some .step) (ha : accepts .step s = true)
      (hc : cycle ((stepCommand (moveTaken s)).tell .accepted) = .next t)

/-- The inversion of `step`. -/
theorem step_next {s t : State} (h : step s = .next t) : Steps s t := by
  obtain ⟨c, rest, hag, hs⟩ | ⟨hn, hs⟩ := step_cases s
  · have hn : nextCommand s = some c := by simp [nextCommand, hag]
    have hm : { s with agenda := rest } = moveTaken s := by simp [moveTaken, hag]
    rw [hs, hm] at h
    obtain ⟨ha, hc⟩ | ⟨ha, hstep, hc⟩ | ⟨ha, rfl, hc⟩ := hostCommand_cases c (moveTaken s) <;>
      rw [accepts_moveTaken] at ha <;> rw [hc] at h
    · exact .refuses c hn ha (Host.Outcome.next.inj h).symm
    · exact .obeys c hn hstep ha (Host.Outcome.next.inj h).symm
    · exact .stepsCycle hn ha (by rwa [cycle_eq])
  · rw [hs] at h
    obtain ⟨hr, -, hl⟩ | ⟨-, hl⟩ := letRun_cases (moveTaken s)
    · exact .runsCycle hn hr (by rw [cycle_eq, ← hl]; exact h)
    · exact .waits hn (Host.Outcome.next.inj (hl.symm.trans h)).symm

/-- Everything a text given for a register can do: nothing, or one write of that register. -/
theorem writeText_cases (r : Reg) (text : Text) (s : State) :
    (writeText r text s).1 = s ∨ (∃ d v, r = .data d ∧ (writeText r text s).1 = writeData d v s) ∨
      ∃ a n, r = .addr a ∧ (writeText r text s).1 = writeAddr a n s := by
  unfold writeText
  split
  · split
    · exact .inr (.inl ⟨_, _, rfl, rfl⟩)
    · exact .inl rfl
  · split
    · exact .inr (.inr ⟨_, _, rfl, rfl⟩)
    · exact .inl rfl

/-- The boundary check writes MachineState at most. -/
theorem boundaryCheck_eq_setMState (s : State) : ∃ m, boundaryCheck s = s.setMState m := by
  obtain h | ⟨h, -⟩ := boundaryCheck_cases s
  · exact ⟨s.mstate, h⟩
  · exact ⟨.paused, h⟩

/-! ### What a cycle leaves unchanged after its fetch -/

/-- What nothing after the fetch of a cycle writes: modes, the controller's fields, IR and INPUT. -/
structure CycleFrame (s t : State) : Prop where
  modes : SameModes s t
  controller : SameController s t
  ir : t.ir = s.ir
  input : t.input = s.input

theorem SameModes.refl (s : State) : SameModes s s := by
  simp [SameModes]

theorem SameModes.trans {s t u : State} (h : SameModes s t) (h' : SameModes t u) : SameModes s u := by
  simp_all [SameModes]

theorem CycleFrame.trans {s t u : State} (h : CycleFrame s t) (h' : CycleFrame t u) : CycleFrame s u where
  modes := h.modes.trans h'.modes
  controller := by
    have h1 := h.controller
    have h2 := h'.controller
    simp_all [SameController]
  ir := h'.ir.trans h.ir
  input := h'.input.trans h.input

theorem raiseFatal_frame (c : ErrorCode) (s : State) : CycleFrame s (raiseFatal c s) := by
  constructor <;> simp [SameModes, SameController]

theorem incremented_frame (s : State) : CycleFrame s (incremented s) := by
  constructor <;> simp [SameModes, SameController, incremented]

theorem decodedFor_frame (i : Instr) (s : State) : CycleFrame s (decodedFor i s) := by
  unfold decodedFor
  split <;> constructor <;> simp [SameModes, SameController, operandFetched]

theorem pointerFollowed_frame (s : State) : CycleFrame s (pointerFollowed s) := by
  constructor <;> simp [SameModes, SameController, pointerFollowed]

theorem setAC_frame (v : Word16) (s : State) : CycleFrame s (s.setAC v) := by
  constructor <;> simp [SameModes, SameController]

theorem setPC_frame (v : Int) (s : State) : CycleFrame s (s.setPC v) := by
  constructor <;> simp [SameModes, SameController]

theorem setMState_frame (m : MState) (s : State) : CycleFrame s (s.setMState m) := by
  constructor <;> simp [SameModes, SameController]

theorem memWritten_frame (m : Memory) (s : State) : CycleFrame s { s with mem := m } := by
  constructor <;> simp [SameModes, SameController]

theorem boundaryCheck_frame (s : State) : CycleFrame s (boundaryCheck s) := by
  obtain ⟨m, h⟩ := boundaryCheck_eq_setMState s
  exact h ▸ setMState_frame m s

theorem executed_frame {i : Instr} {u t : State} (h : Executed i u t) : CycleFrame u t := by
  cases i with
  | jnS _ => exact h ▸ ((memWritten_frame _ u).trans (setAC_frame _ _)).trans (setPC_frame _ _)
  | load _ => exact h ▸ setAC_frame _ u
  | store _ => exact h ▸ memWritten_frame _ u
  | add _ => exact h ▸ setAC_frame _ u
  | subt _ => exact h ▸ setAC_frame _ u
  | input => exact h ▸ setMState_frame _ u
  | output =>
    obtain rfl := h
    constructor <;> simp [SameModes, SameController]
  | halt => exact h ▸ setMState_frame _ u
  | skipCond _ =>
    obtain ⟨-, rfl⟩ | ⟨-, -, rfl⟩ | ⟨-, -, rfl⟩ := h
    · exact raiseFatal_frame _ u
    · exact setPC_frame _ u
    · constructor <;> simp [SameModes, SameController]
  | jump _ => exact h ▸ setPC_frame _ u
  | clear => exact h ▸ setAC_frame _ u
  | addI _ => exact h ▸ (pointerFollowed_frame u).trans (setAC_frame _ _)
  | jumpI _ => exact h ▸ setPC_frame _ u
  | loadI _ => exact h ▸ (pointerFollowed_frame u).trans (setAC_frame _ _)
  | storeI _ =>
    obtain ⟨-, rfl⟩ | ⟨-, rfl⟩ := h
    · exact (pointerFollowed_frame u).trans (memWritten_frame _ _)
    · exact (pointerFollowed_frame u).trans (raiseFatal_frame _ _)

theorem exec_frame {i : Instr} {s t : State} (h : exec i s = .next t) : CycleFrame s t := by
  obtain ⟨-, ⟨-, rfl⟩ | ⟨-, h⟩⟩ := exec_next h
  · exact (decodedFor_frame i s).trans (raiseFatal_frame _ _)
  · exact ((decodedFor_frame i s).trans (incremented_frame _)).trans (executed_frame h)

theorem fetched_ir_value (s : State) : (fetched s).ir.value = s.cell s.pc.value := rfl

/-- Everything a cycle can do when it answers a next state. -/
theorem cycle_next {s t : State} (h : cycle s = .next t) :
    (decode (s.cell s.pc.value) = .error .illegalOpcode ∧ t = raiseFatal .illegalOpcode (fetched s)) ∨
      ∃ i u, decode (s.cell s.pc.value) = .ok i ∧ exec i (fetched s) = .next u ∧ t = boundaryCheck u := by
  rw [cycle_eq] at h
  have hd := decodeAndExecute_next h
  simpa only [fetched_ir_value] using hd

theorem cycle_frame {s t : State} (h : cycle s = .next t) : CycleFrame (fetched s) t := by
  obtain ⟨-, rfl⟩ | ⟨i, u, -, hu, rfl⟩ := cycle_next h
  · exact raiseFatal_frame _ _
  · exact (exec_frame hu).trans (boundaryCheck_frame u)

end Sys2Proof.Machine
end

section
/-! SUPPORT. 10_state.md R39, R26 and R30: what may write the output stream, IR and INPUT. -/

namespace Sys2Proof.Machine

/-! ### The output stream -/

@[simp] theorem boundaryCheck_outStream (s : State) : (boundaryCheck s).outStream = s.outStream := by
  obtain ⟨m, h⟩ := boundaryCheck_eq_setMState s
  simp [h]

@[simp] theorem decodedFor_outStream (i : Instr) (s : State) : (decodedFor i s).outStream = s.outStream := by
  unfold decodedFor
  split <;> rfl

theorem executed_outStream {i : Instr} {u t : State} (h : Executed i u t) (hi : i ≠ .output) :
    t.outStream = u.outStream := by
  cases i with
  | output => exact absurd rfl hi
  | skipCond _ => obtain ⟨-, rfl⟩ | ⟨-, -, rfl⟩ | ⟨-, -, rfl⟩ := h <;> rfl
  | storeI _ => obtain ⟨-, rfl⟩ | ⟨-, rfl⟩ := h <;> rfl
  | jnS _ | load _ | store _ | add _ | subt _ | input | halt | jump _ | clear | addI _ | jumpI _ | loadI _ =>
    obtain rfl := h
    rfl

/-- An instruction leaves the stream as it was, or is an Output and appends its record. -/
theorem exec_outStream {i : Instr} {s t : State} (h : exec i s = .next t) :
    t.outStream = s.outStream ∨ (i = .output ∧ t.outStream = s.outStream ++ [⟨s.ac.value, s.output.mode⟩]) := by
  obtain ⟨-, ⟨-, rfl⟩ | ⟨-, h⟩⟩ := exec_next h
  · exact .inl (decodedFor_outStream i s)
  · by_cases hi : i = .output
    · subst hi
      obtain rfl := h
      exact .inr ⟨rfl, rfl⟩
    · exact .inl ((executed_outStream h hi).trans (decodedFor_outStream i s))

theorem cycle_outStream {s t : State} (h : cycle s = .next t) :
    t.outStream = s.outStream ∨
      (t.outStream = s.outStream ++ [⟨s.ac.value, s.output.mode⟩] ∧ decode (s.cell s.pc.value) = .ok .output) := by
  obtain ⟨-, rfl⟩ | ⟨i, u, hd, hu, rfl⟩ := cycle_next h
  · exact .inl rfl
  · rw [boundaryCheck_outStream]
    obtain ho | ⟨rfl, ho⟩ := exec_outStream hu
    · exact .inl ho
    · exact .inr ⟨ho, hd⟩

theorem writeText_outStream (r : Reg) (text : Text) (s : State) : (writeText r text s).1.outStream = s.outStream := by
  obtain h | ⟨d, v, -, h⟩ | ⟨a, n, -, h⟩ := writeText_cases r text s <;> rw [h]
  · cases d <;> rfl
  · cases a <;> rfl

/-- No command but reset and load has an effect on the stream. -/
theorem commandEffect_outStream (c : Command) (s : State) (hr : c ≠ .reset) (hl : ∀ image, c ≠ .load image) :
    (commandEffect c s).1.outStream = s.outStream := by
  cases c with
  | reset => exact absurd rfl hr
  | load image => exact absurd rfl (hl image)
  | supply v => exact boundaryCheck_outStream _
  | writeData r v => cases r <;> rfl
  | writeAddr r v => cases r <;> rfl
  | writeRegText r text => exact writeText_outStream r text s
  | setMode r m => obtain (_ | _ | _ | _ | _) | (_ | _) := r <;> rfl
  | run _ | step | pause | stop | inputInvalid | setBreakpoint _ _ | clearBreakpoints => rfl

/-! ### IR and INPUT -/

/-- The commands that may write a data-class register of the host's choice, or reset them all. -/
def mayWriteData (d : DataReg) (c : Command) : Prop :=
  (∃ v, c = .writeData d v) ∨ (∃ x, c = .writeRegText (.data d) x) ∨ c = .reset ∨ ∃ image, c = .load image

theorem boundaryCheck_ac (s : State) : (boundaryCheck s).ac = s.ac := by
  obtain ⟨m, h⟩ := boundaryCheck_eq_setMState s
  simp [h]

theorem writeAddr_ir_input (r : AddrReg) (n : Int) (s : State) :
    (writeAddr r n s).ir = s.ir ∧ (writeAddr r n s).input = s.input := by
  cases r <;> exact ⟨rfl, rfl⟩

theorem setRegMode_ir_input (r : Reg) (m : Mode) (s : State) :
    (setRegMode r m s).ir.value = s.ir.value ∧ (setRegMode r m s).input.value = s.input.value := by
  obtain (_ | _ | _ | _ | _) | (_ | _) := r <;> exact ⟨rfl, rfl⟩

theorem writeData_ir (d : DataReg) (v : Word16) (s : State) : d = .ir ∨ (writeData d v s).ir = s.ir := by
  cases d with
  | ir => exact .inl rfl
  | ac | mbr | input | output => exact .inr rfl

theorem writeData_input (d : DataReg) (v : Word16) (s : State) : d = .input ∨ (writeData d v s).input = s.input := by
  cases d with
  | input => exact .inl rfl
  | ac | ir | mbr | output => exact .inr rfl

/-- The effect of a command on IR, a host write and a reset apart. -/
theorem commandEffect_ir (c : Command) (s : State) :
    mayWriteData .ir c ∨ (commandEffect c s).1.ir.value = s.ir.value := by
  cases c with
  | reset => exact .inl (.inr (.inr (.inl rfl)))
  | load image => exact .inl (.inr (.inr (.inr ⟨image, rfl⟩)))
  | writeData d v =>
    obtain rfl | h := writeData_ir d v s
    · exact .inl (.inl ⟨v, rfl⟩)
    · exact .inr (congrArg _ h)
  | writeRegText r text =>
    obtain h | ⟨d, v, rfl, h⟩ | ⟨a, n, rfl, h⟩ := writeText_cases r text s
    · exact .inr (congrArg (·.ir.value) h)
    · obtain rfl | h' := writeData_ir d v s
      · exact .inl (.inr (.inl ⟨text, rfl⟩))
      · exact .inr (congrArg _ ((congrArg State.ir h).trans h'))
    · exact .inr (congrArg _ ((congrArg State.ir h).trans (writeAddr_ir_input a n s).1))
  | supply v => exact .inr (congrArg _ (boundaryCheck_frame _).ir)
  | writeAddr r n => exact .inr (congrArg _ (writeAddr_ir_input r n s).1)
  | setMode r m => exact .inr (setRegMode_ir_input r m s).1
  | run _ | step | pause | stop | inputInvalid | setBreakpoint _ _ | clearBreakpoints => exact .inr rfl

/-- The effect of a command on INPUT, a host write and a reset apart: `supply` puts its value there and in AC. -/
theorem commandEffect_input (c : Command) (s : State) :
    mayWriteData .input c ∨ (commandEffect c s).1.input.value = s.input.value ∨
      ∃ v, c = .supply v ∧ (commandEffect c s).1.input.value = v ∧ (commandEffect c s).1.ac.value = v := by
  cases c with
  | reset => exact .inl (.inr (.inr (.inl rfl)))
  | load image => exact .inl (.inr (.inr (.inr ⟨image, rfl⟩)))
  | writeData d v =>
    obtain rfl | h := writeData_input d v s
    · exact .inl (.inl ⟨v, rfl⟩)
    · exact .inr (.inl (congrArg _ h))
  | writeRegText r text =>
    obtain h | ⟨d, v, rfl, h⟩ | ⟨a, n, rfl, h⟩ := writeText_cases r text s
    · exact .inr (.inl (congrArg (·.input.value) h))
    · obtain rfl | h' := writeData_input d v s
      · exact .inl (.inr (.inl ⟨text, rfl⟩))
      · exact .inr (.inl (congrArg _ ((congrArg State.input h).trans h')))
    · exact .inr (.inl (congrArg _ ((congrArg State.input h).trans (writeAddr_ir_input a n s).2)))
  | supply v =>
    exact .inr (.inr ⟨v, rfl, congrArg _ (boundaryCheck_frame _).input, congrArg _ (boundaryCheck_ac _)⟩)
  | writeAddr r n => exact .inr (.inl (congrArg _ (writeAddr_ir_input r n s).2))
  | setMode r m => exact .inr (.inl (setRegMode_ir_input r m s).2)
  | run _ | step | pause | stop | inputInvalid | setBreakpoint _ _ | clearBreakpoints => exact .inr (.inl rfl)

/-! ### The statements -/

/-- Settles O37: the stream gains a record in a cycle of Output only. -/
theorem outputStreamOnlyGrows : Obligations.OutputStreamOnlyGrows := by
  intro s t h hreset hload
  cases step_next h with
  | waits _ ht => exact .inl (ht ▸ rfl)
  | refuses _ _ _ ht => exact .inl (ht ▸ rfl)
  | obeys c hn _ _ ht =>
    rw [hn] at hreset hload
    subst ht
    exact .inl (commandEffect_outStream c (moveTaken s) (fun h => hreset (h ▸ rfl)) fun i h => hload i (h ▸ rfl))
  | runsCycle hn _ hc => exact (cycle_outStream hc).imp id fun ⟨ho, hd⟩ => ⟨ho, hd, .inl hn⟩
  | stepsCycle hn _ hc => exact (cycle_outStream hc).imp id fun ⟨ho, hd⟩ => ⟨ho, hd, .inr hn⟩

/-- A step changes IR by the fetch of a cycle or by a command that may write it. -/
theorem step_ir {s t : State} (h : step s = .next t) :
    t.ir.value = s.ir.value ∨
      ((nextCommand s = none ∨ nextCommand s = some .step) ∧ t.ir.value = s.cell s.pc.value) ∨
      ∃ c, nextCommand s = some c ∧ mayWriteData .ir c := by
  cases step_next h with
  | waits _ ht => exact .inl (ht ▸ rfl)
  | refuses _ _ _ ht => exact .inl (ht ▸ rfl)
  | obeys c hn _ _ ht =>
    subst ht
    obtain hw | he := commandEffect_ir c (moveTaken s)
    · exact .inr (.inr ⟨c, hn, hw⟩)
    · exact .inl he
  | runsCycle hn _ hc => exact .inr (.inl ⟨.inl hn, congrArg _ (cycle_frame hc).ir⟩)
  | stepsCycle hn _ hc => exact .inr (.inl ⟨.inr hn, congrArg _ (cycle_frame hc).ir⟩)

/-- A step changes INPUT by `supply` or by a command that may write it. -/
theorem step_input {s t : State} (h : step s = .next t) :
    t.input.value = s.input.value ∨
      (∃ v, nextCommand s = some (.supply v) ∧ t.input.value = v ∧ t.ac.value = v) ∨
      ∃ c, nextCommand s = some c ∧ mayWriteData .input c := by
  cases step_next h with
  | waits _ ht => exact .inl (ht ▸ rfl)
  | refuses _ _ _ ht => exact .inl (ht ▸ rfl)
  | obeys c hn _ _ ht =>
    subst ht
    obtain hw | he | ⟨v, rfl, hi, ha⟩ := commandEffect_input c (moveTaken s)
    · exact .inr (.inr ⟨c, hn, hw⟩)
    · exact .inl he
    · exact .inr (.inl ⟨v, hn, hi, ha⟩)
  | runsCycle _ _ hc => exact .inl (congrArg _ (cycle_frame hc).input)
  | stepsCycle _ _ hc => exact .inl (congrArg _ (cycle_frame hc).input)

/-- Settles O38, by the cases of a step for each of the two registers. -/
theorem writersOfIRAndINPUT : Obligations.WritersOfIRAndINPUT := by
  intro s t h
  refine ⟨fun hir => ?_, fun hin => ?_⟩
  · obtain he | hc | ⟨c, hn, hw⟩ := step_ir h
    · exact absurd he hir
    · exact .inl hc
    · simpa [mayWriteData, hn] using Or.inr hw
  · obtain he | hs | ⟨c, hn, hw⟩ := step_input h
    · exact absurd he hin
    · exact .inl hs
    · simpa [mayWriteData, hn] using Or.inr hw

end Sys2Proof.Machine
end

section
/-! SUPPORT. 10_state.md R23 and R43: the masking write of an address register, and the machine before construction. -/

namespace Sys2Proof.Machine

/-- Settles O44: `mask12` is the residue modulo 4096. -/
theorem addressRegistersMaskEveryWrite : Obligations.AddressRegistersMaskEveryWrite := by
  intro r v
  have hv : ((r.setValue v).value.toNat : Int) = v % 4096 := by
    simp only [AddrRegister.setValue_value, mask12, BitVec.toNat_ofInt]
    omega
  exact ⟨hv, rfl, by omega, addr_toNat_le _⟩

theorem withOperand_unconstructed {s : State} (h : s.mstate = .uninitialized) (x : Addr12) (k : State → Result) :
    withOperand x s k = .refused .uninitialized := if_pos h

theorem withoutOperand_unconstructed {s : State} (h : s.mstate = .uninitialized) (k : State → Result) :
    withoutOperand s k = .refused .uninitialized := if_pos h

theorem exec_unconstructed {s : State} (h : s.mstate = .uninitialized) (i : Instr) :
    exec i s = .refused .uninitialized := by
  cases i with
  | jnS x | load x | store x | add x | subt x | addI x | jumpI x | loadI x | storeI x =>
    exact withOperand_unconstructed h x _
  | input | output | halt | skipCond _ | jump _ | clear => exact withoutOperand_unconstructed h _

/-- Before construction the rows of R223 accept reset alone. -/
theorem accepts_unconstructed {s : State} (h : s.mstate = .uninitialized) {c : Command} (hc : c ≠ .reset) :
    accepts c s = false := by
  cases c with
  | reset => exact absurd rfl hc
  | load _ | writeData _ _ | writeAddr _ _ | writeRegText _ _ | setMode _ _ | setBreakpoint _ _ | clearBreakpoints =>
    simp [accepts, constructed, h]
  | run _ | step => simp [accepts, resumable, h]
  | pause | supply _ | inputInvalid => simp [accepts, h]
  | stop => simp [accepts, stoppable, h]

/-- A command its row does not accept is answered and changes nothing else. -/
theorem step_refused {s : State} {c : Command} {rest : List HostMove} (hg : Gives s c rest) (ha : accepts c s = false) :
    step s = .next (answered s rest .refused) := by
  have ha' : accepts c { s with agenda := rest } = false := by
    rw [← ha]
    cases c <;> rfl
  unfold Gives at hg
  simp only [step, hg, hostCommand, ha']
  rfl

/-- Settles O59: the observation is the block itself, and before construction every meaning and every command but reset
is refused. -/
theorem nothingIsReadBeforeConstruction : Obligations.NothingIsReadBeforeConstruction :=
  ⟨fun _ h => if_neg h, fun _ h =>
    ⟨if_pos h, exec_unconstructed h, fun _ _ hg hc => step_refused hg (accepts_unconstructed h hc)⟩⟩

end Sys2Proof.Machine
end

section
/-! SUPPORT. The invariant of Safety.lean: a machine with a program keeps it whatever writes its registers, and reset and load establish it. -/

namespace Sys2Proof.Machine

/-! ### States with the same program, and states without one -/

/-- The invariant reads memory, the AddressIndex, the cursor, MachineState, the fatal flag, the stream and `ctl` only. -/
theorem Inv.congr {s t : State} (h : Inv s) (mem : t.mem = s.mem := by rfl)
    (index : t.addrIndex = s.addrIndex := by rfl) (cursor : t.cursor = s.cursor := by rfl)
    (mstate : t.mstate = s.mstate := by rfl) (fatal : t.fatal = s.fatal := by rfl)
    (out : t.outStream = s.outStream := by rfl) (ctl : t.ctl = s.ctl := by rfl) : Inv t := by
  constructor
  · exact mem ▸ h.mem_wf
  · exact index ▸ h.index_wf
  · exact mstate ▸ fatal ▸ h.abnormal_has_code
  · exact mstate ▸ fatal ▸ index ▸ out ▸ ctl ▸ h.no_program_clean
  · exact mstate ▸ index ▸ h.program_loaded
  · exact cursor ▸ index ▸ h.cursor_listed

/-- MachineState and the fatal flag of a machine that holds a program. -/
def HoldsProgram (s : State) : Prop :=
  s.mstate ≠ .noProgramLoaded ∧ (s.mstate = .haltedAbnormal → s.fatal ≠ none)

/-- A machine with a program goes on with it: whatever else a step writes, canonical memory, an unchanged AddressIndex
and a listed cursor are enough. -/
theorem Inv.withProgram {s t : State} (h : Inv s) (hs : s.mstate ≠ .uninitialized ∧ s.mstate ≠ .noProgramLoaded)
    (ht : HoldsProgram t) (mem : t.mem.wf = true) (index : t.addrIndex = s.addrIndex)
    (cursor : ∀ line, t.cursor = some line → ∃ e ∈ s.addrIndex, e.line = line) : Inv t where
  mem_wf := mem
  index_wf := index ▸ h.index_wf
  abnormal_has_code := ht.2
  no_program_clean := fun hn => absurd hn ht.1
  program_loaded := fun _ _ => index ▸ h.program_loaded hs.1 hs.2
  cursor_listed := index ▸ cursor

/-- A machine without a program is as reset leaves it, with any canonical memory. -/
theorem Inv.ofNoProgram {s : State} (mem : s.mem.wf = true) (mstate : s.mstate = .noProgramLoaded)
    (fatal : s.fatal = none) (index : s.addrIndex = []) (out : s.outStream = []) (ctl : s.ctl = .singleStep)
    (cursor : s.cursor = none) : Inv s where
  mem_wf := mem
  index_wf := index ▸ rfl
  abnormal_has_code := fun h => absurd (mstate.symm.trans h) (by decide)
  no_program_clean := fun _ => ⟨fatal, index, out, ctl⟩
  program_loaded := fun _ h => absurd mstate h
  cursor_listed := fun _ h => absurd (cursor.symm.trans h) (by simp)

theorem Inv.moveTaken {s : State} (h : Inv s) : Inv (moveTaken s) := h.congr

theorem Inv.tell {s : State} (h : Inv s) (r : Reply) : Inv (s.tell r) := h.congr

/-! ### Reset and load -/

/-- Settles O32: `State.reset` has no program. -/
theorem resetMeetsTheInvariant : Obligations.ResetMeetsTheInvariant :=
  Inv.ofNoProgram Memory.wf_nil rfl rfl rfl rfl rfl rfl

theorem resetBlock_inv (s : State) : Inv (resetBlock s) :=
  Inv.ofNoProgram Memory.wf_nil rfl rfl rfl rfl rfl rfl

theorem hostReset_inv (s : State) : Inv (hostReset s) := by
  unfold hostReset
  split <;> exact resetBlock_inv _

theorem rejectImage_inv (s : State) : Inv (rejectImage (resetBlock s)) :=
  Inv.ofNoProgram (rejectImage_mem_wf _) rfl rfl rfl rfl rfl rfl

theorem acceptImage_inv (s : State) (rs : List LoadedRecord) : Inv (acceptImage (resetBlock s) rs) := by
  cases rs with
  | nil => exact resetBlock_inv s
  | cons r rs =>
    have mem := loadRecords_mem_wf (r :: rs) (resetBlock s) Memory.wf_nil
    have index := loadRecords_index_wf (r :: rs) (resetBlock s) rfl
    have loaded := loadRecords_index_ne_nil (r :: rs) (resetBlock s) (.inr (by simp))
    have cursor : (loadRecords (resetBlock s) (r :: rs)).cursor = none := by
      obtain ⟨m, l, h⟩ := loadRecords_frame (r :: rs) (resetBlock s)
      rw [h]
      rfl
    constructor
    · exact mem
    · exact index
    · exact nofun
    · exact nofun
    · exact fun _ _ => loaded
    · exact fun _ h => absurd (cursor.symm.trans h) (by simp)

theorem loadImage_inv (image : Image) (s : State) : Inv (loadImage image s).1 := by
  unfold loadImage
  split
  · exact acceptImage_inv s _
  · exact rejectImage_inv s

/-! ### Host writes and breakpoints -/

theorem Inv.writeData {s : State} (h : Inv s) (d : DataReg) (v : Word16) : Inv (writeData d v s) := by
  cases d <;> exact h.congr

theorem Inv.writeAddr {s : State} (h : Inv s) (a : AddrReg) (n : Int) : Inv (writeAddr a n s) := by
  cases a <;> exact h.congr

theorem Inv.writeText {s : State} (h : Inv s) (r : Reg) (text : Text) : Inv (writeText r text s).1 := by
  obtain he | ⟨d, v, -, he⟩ | ⟨a, n, -, he⟩ := writeText_cases r text s <;> rw [he]
  · exact h
  · exact h.writeData d v
  · exact h.writeAddr a n

theorem Inv.setRegMode {s : State} (h : Inv s) (r : Reg) (m : Mode) : Inv (setRegMode r m s) := by
  obtain (_ | _ | _ | _ | _) | (_ | _) := r <;> exact h.congr

/-- Breakpoint flags are free: a change of the entries that keeps each one's address and line keeps the invariant. -/
theorem Inv.mapIndex {s : State} (h : Inv s) (f : IndexEntry → IndexEntry) (haddr : ∀ e, (f e).addr = e.addr)
    (hline : ∀ e, (f e).line = e.line) : Inv { s with addrIndex := s.addrIndex.map f } where
  mem_wf := h.mem_wf
  index_wf := indexWfFrom_map f haddr h.index_wf
  abnormal_has_code := h.abnormal_has_code
  no_program_clean := fun hn => by
    obtain ⟨hf, hi, ho, hc⟩ := h.no_program_clean hn
    exact ⟨hf, by simp [hi], ho, hc⟩
  program_loaded := fun hu hn => by simpa using h.program_loaded hu hn
  cursor_listed := fun line hl => by
    obtain ⟨e, he, rfl⟩ := h.cursor_listed line hl
    exact ⟨f e, List.mem_map_of_mem he, hline e⟩

/-! ### Commands on a machine with a program -/

theorem raiseFatal_holdsProgram (c : ErrorCode) (s : State) : HoldsProgram (raiseFatal c s) := by
  simp [HoldsProgram]

theorem resumable_withProgram {s : State} (h : resumable s = true) :
    s.mstate ≠ .uninitialized ∧ s.mstate ≠ .noProgramLoaded := by
  obtain h | h | h | ⟨h, -⟩ := of_decide_eq_true h <;> simp [h]

theorem stoppable_withProgram {s : State} (h : stoppable s = true) :
    s.mstate ≠ .uninitialized ∧ s.mstate ≠ .noProgramLoaded := by
  obtain h | h | h := of_decide_eq_true h <;> simp [h]

theorem supplyCommand_inv {s : State} (h : Inv s) (hb : s.mstate = .blockedOnInput) (v : Word16) :
    Inv (supplyCommand v s) := by
  have hs : s.mstate ≠ .uninitialized ∧ s.mstate ≠ .noProgramLoaded := by simp [hb]
  obtain he | ⟨he, -⟩ := boundaryCheck_cases (((s.setINPUT v).setAC (s.setINPUT v).input.value).setMState .running) <;>
    rw [supplyCommand, he] <;>
    exact h.withProgram hs ⟨by simp, by simp⟩ h.mem_wf rfl h.cursor_listed

/-- The effect of every command its row accepts keeps the invariant. -/
theorem commandEffect_inv {c : Command} {s : State} (h : Inv s) (ha : accepts c s = true) :
    Inv (commandEffect c s).1 := by
  cases c with
  | reset => exact hostReset_inv s
  | load image => exact loadImage_inv image s
  | run _ | step =>
    exact h.withProgram (resumable_withProgram ha) ⟨nofun, nofun⟩ h.mem_wf rfl h.cursor_listed
  | pause =>
    have hr : s.mstate = .running := of_decide_eq_true ha
    exact h.withProgram (by simp [hr]) ⟨nofun, nofun⟩ h.mem_wf rfl h.cursor_listed
  | stop =>
    exact h.withProgram (stoppable_withProgram ha) ⟨nofun, nofun⟩ h.mem_wf rfl h.cursor_listed
  | supply v => exact supplyCommand_inv h (of_decide_eq_true ha) v
  | inputInvalid =>
    have hb : s.mstate = .blockedOnInput := of_decide_eq_true ha
    exact h.withProgram (by simp [hb]) (raiseFatal_holdsProgram _ s) h.mem_wf rfl h.cursor_listed
  | writeData d v => exact h.writeData d v
  | writeAddr a n => exact h.writeAddr a n
  | writeRegText r text => exact h.writeText r text
  | setMode r m => exact h.setRegMode r m
  | setBreakpoint a flag =>
    exact h.mapIndex (fun e => if e.addr = a.toNat then { e with breakpoint := flag } else e)
      (fun e => by split <;> rfl) (fun e => by split <;> rfl)
  | clearBreakpoints => exact h.mapIndex (fun e => { e with breakpoint := false }) (fun _ => rfl) fun _ => rfl

/-! ### Cycles -/

theorem decodedFor_mem (i : Instr) (s : State) : (decodedFor i s).mem = s.mem := by
  unfold decodedFor
  split <;> rfl

theorem decodedFor_mstate (i : Instr) (s : State) : (decodedFor i s).mstate = s.mstate := by
  unfold decodedFor
  split <;> rfl

theorem executed_mem_wf {i : Instr} {u t : State} (h : Executed i u t) (hu : u.mem.wf = true) :
    t.mem.wf = true := by
  cases i with
  | jnS _ | store _ =>
    obtain rfl := h
    exact Memory.wf_write _ hu u.mar.value.isLt
  | storeI _ =>
    obtain ⟨hr, rfl⟩ | ⟨-, rfl⟩ := h
    · exact Memory.wf_write _ hu (by simp only [Config.memorySize]; omega)
    · exact hu
  | skipCond _ => obtain ⟨-, rfl⟩ | ⟨-, -, rfl⟩ | ⟨-, -, rfl⟩ := h <;> exact hu
  | load _ | add _ | subt _ | input | output | halt | jump _ | clear | addI _ | jumpI _ | loadI _ =>
    obtain rfl := h
    exact hu

theorem exec_mem_wf {i : Instr} {s t : State} (h : exec i s = .next t) (hs : s.mem.wf = true) : t.mem.wf = true := by
  obtain ⟨-, ⟨-, rfl⟩ | ⟨-, h⟩⟩ := exec_next h
  · exact decodedFor_mem i s ▸ hs
  · exact executed_mem_wf h (decodedFor_mem i s ▸ hs)

/-- Where an execute phase may leave MachineState: an abnormal halt carries a code. -/
theorem executed_mstate {i : Instr} {u t : State} (h : Executed i u t) :
    t.mstate = u.mstate ∨ t.mstate = .blockedOnInput ∨ t.mstate = .haltedNormal ∨
      (t.mstate = .haltedAbnormal ∧ t.fatal ≠ none) := by
  cases i with
  | input =>
    obtain rfl := h
    exact .inr (.inl rfl)
  | halt =>
    obtain rfl := h
    cases hf : u.fatal with
    | none => exact .inr (.inr (.inl rfl))
    | some c => exact .inr (.inr (.inr ⟨rfl, by simp [hf]⟩))
  | skipCond _ =>
    obtain ⟨-, rfl⟩ | ⟨-, -, rfl⟩ | ⟨-, -, rfl⟩ := h
    · exact .inr (.inr (.inr ⟨rfl, by simp⟩))
    · exact .inl rfl
    · exact .inl rfl
  | storeI _ =>
    obtain ⟨-, rfl⟩ | ⟨-, rfl⟩ := h
    · exact .inl rfl
    · exact .inr (.inr (.inr ⟨rfl, by simp⟩))
  | jnS _ | load _ | store _ | add _ | subt _ | output | jump _ | clear | addI _ | jumpI _ | loadI _ =>
    obtain rfl := h
    exact .inl rfl

theorem exec_mstate {i : Instr} {s t : State} (h : exec i s = .next t) :
    t.mstate = s.mstate ∨ t.mstate = .blockedOnInput ∨ t.mstate = .haltedNormal ∨
      (t.mstate = .haltedAbnormal ∧ t.fatal ≠ none) := by
  obtain ⟨-, ⟨-, rfl⟩ | ⟨-, h⟩⟩ := exec_next h
  · exact .inr (.inr (.inr ⟨rfl, by simp⟩))
  · exact (executed_mstate h).imp (fun he => he.trans (decodedFor_mstate i s)) id

theorem exec_holdsProgram {i : Instr} {s t : State} (h : exec i s = .next t) (hr : s.mstate = .running) :
    HoldsProgram t := by
  unfold HoldsProgram
  obtain hm | hm | hm | ⟨hm, hf⟩ := exec_mstate h
  · simp [hm, hr]
  · simp [hm]
  · simp [hm]
  · simp [hm, hf]

theorem boundaryCheck_holdsProgram {s : State} (h : HoldsProgram s) : HoldsProgram (boundaryCheck s) := by
  obtain he | ⟨he, -⟩ := boundaryCheck_cases s <;> rw [he]
  · exact h
  · exact ⟨nofun, nofun⟩

theorem boundaryCheck_mem (s : State) : (boundaryCheck s).mem = s.mem := by
  obtain ⟨m, h⟩ := boundaryCheck_eq_setMState s
  rw [h, State.setMState_mem]

/-- A fetch moves the cursor to a listed line or leaves it. -/
theorem cursorAfter_listed {s : State} (h : Inv s) (a : Addr12) {line : Nat} (hl : cursorAfter s a = some line) :
    ∃ e ∈ s.addrIndex, e.line = line := by
  unfold cursorAfter at hl
  split at hl
  · rename_i e he
    exact ⟨e, (indexFind_mem he).1, Option.some.inj hl⟩
  · exact h.cursor_listed line hl

theorem cycle_inv {s t : State} (h : Inv s) (hr : s.mstate = .running) (hc : cycle s = .next t) : Inv t := by
  obtain ⟨-, hcursor, hindex, -⟩ := (cycle_frame hc).controller
  have hs : s.mstate ≠ .uninitialized ∧ s.mstate ≠ .noProgramLoaded := by simp [hr]
  have hprogram : HoldsProgram t ∧ t.mem.wf = true := by
    obtain ⟨-, rfl⟩ | ⟨i, u, -, hu, rfl⟩ := cycle_next hc
    · exact ⟨raiseFatal_holdsProgram _ _, h.mem_wf⟩
    · exact ⟨boundaryCheck_holdsProgram (exec_holdsProgram hu hr),
        boundaryCheck_mem u ▸ exec_mem_wf hu h.mem_wf⟩
  exact h.withProgram hs hprogram.1 hprogram.2 hindex fun line hl => cursorAfter_listed h _ (hcursor.symm.trans hl)

/-- Settles O31, by the cases of a step. -/
theorem stepKeepsTheInvariant : Obligations.StepKeepsTheInvariant := by
  intro s t h hstep
  cases step_next hstep with
  | waits _ ht => exact ht ▸ h.moveTaken
  | refuses _ _ _ ht => exact ht ▸ h.moveTaken.tell _
  | obeys c _ _ ha ht => exact ht ▸ (commandEffect_inv h.moveTaken (by rwa [accepts_moveTaken])).tell _
  | runsCycle _ hr hc => exact cycle_inv h.moveTaken hr hc
  | stepsCycle _ ha hc =>
    have hstepped : Inv (stepCommand (moveTaken s)) :=
      commandEffect_inv (c := .step) h.moveTaken (by rwa [accepts_moveTaken])
    exact cycle_inv (hstepped.tell _) rfl hc

end Sys2Proof.Machine
end

section
/-! SUPPORT. 10_state.md R32: a step reads no display mode, and only `set_mode` writes one. -/

namespace Sys2Proof.Machine

/-! ### Forgetting the modes -/

theorem withoutModes_idem (s : State) : withoutModes (withoutModes s) = withoutModes s := by
  simp [withoutModes, Function.comp_def]

theorem resultWithoutModes_idem (r : Result) : resultWithoutModes (resultWithoutModes r) = resultWithoutModes r := by
  cases r with
  | next s => exact congrArg Host.Outcome.next (withoutModes_idem s)
  | fault _ | refused _ => rfl

/-- What `k` makes of a state without modes is what it makes of the state, without modes. -/
def ReadsNoMode (k : State → Result) : Prop := ∀ s, k (withoutModes s) = resultWithoutModes (k s)

/-! ### A cycle reads no mode -/

/-- A choice by what is no mode reads no mode where its branches read none. -/
theorem ite_readsNoMode (p : State → Prop) [DecidablePred p] {j k : State → Result}
    (hp : ∀ s, p (withoutModes s) ↔ p s) (hj : ReadsNoMode j) (hk : ReadsNoMode k) :
    ReadsNoMode fun s => if p s then j s else k s := by
  intro s
  by_cases h : p s
  · simpa only [hp, if_pos h] using hj s
  · simpa only [hp, if_neg h] using hk s

theorem ifConstructed_readsNoMode {k : State → Result} (hk : ReadsNoMode k) : ReadsNoMode (ifConstructed · k) :=
  ite_readsNoMode (·.mstate = .uninitialized) (fun _ => .rfl) (fun _ => rfl) hk

theorem incrementPhase_readsNoMode {k : State → Result} (hk : ReadsNoMode k) : ReadsNoMode (incrementPhase · k) :=
  ite_readsNoMode (fun s => s.pc.value.toNat + 1 > 4095) (fun _ => .rfl) (fun _ => rfl)
    fun s => hk (s.setPC (s.pc.value.toNat + 1))

theorem operandPhase_readsNoMode (x : Addr12) {k : State → Result} (hk : ReadsNoMode k) :
    ReadsNoMode (operandPhase x · k) := by
  intro s
  simp only [operandPhase_eq]
  exact hk (operandFetched x s)

theorem withOperand_readsNoMode (x : Addr12) {k : State → Result} (hk : ReadsNoMode k) :
    ReadsNoMode (withOperand x · k) :=
  ifConstructed_readsNoMode (operandPhase_readsNoMode x (incrementPhase_readsNoMode hk))

theorem withoutOperand_readsNoMode {k : State → Result} (hk : ReadsNoMode k) :
    ReadsNoMode (withoutOperand · k) :=
  ifConstructed_readsNoMode (incrementPhase_readsNoMode hk)

theorem pointerStep_readsNoMode {k : State → Result} (hk : ReadsNoMode k) : ReadsNoMode (pointerStep · k) := by
  intro s
  simp only [pointerStep_eq]
  exact hk (pointerFollowed s)

theorem memWrite_withoutModes (a : Int) (v : Word16) (s : State) {k : State → Result} (hk : ReadsNoMode k) :
    memWrite a v (withoutModes s) k = resultWithoutModes (memWrite a v s k) := by
  unfold memWrite
  split
  · exact hk { s with mem := s.mem.write a.toNat v }
  · rfl

theorem emit_withoutModes (v : Word16) (m : Mode) (s : State) :
    emit v .hex (withoutModes s) = withoutModes (emit v m s) := by
  simp [emit, withoutModes]

theorem exec_readsNoMode (i : Instr) : ReadsNoMode (exec i) := by
  cases i with
  | jnS x => exact withOperand_readsNoMode x fun u => memWrite_withoutModes _ _ u fun _ => rfl
  | store x => exact withOperand_readsNoMode x fun u => memWrite_withoutModes _ _ u fun _ => rfl
  | storeI x =>
    exact withOperand_readsNoMode x (pointerStep_readsNoMode fun u => memWrite_withoutModes _ _ u fun _ => rfl)
  | load x | add x | subt x | jumpI x => exact withOperand_readsNoMode x fun _ => rfl
  | addI x | loadI x => exact withOperand_readsNoMode x (pointerStep_readsNoMode fun _ => rfl)
  | output =>
    exact withoutOperand_readsNoMode fun u =>
      congrArg Host.Outcome.next (emit_withoutModes u.ac.value u.output.mode (u.setOUTPUT u.ac.value))
  | skipCond cond =>
    exact withoutOperand_readsNoMode (ite_readsNoMode (fun _ => cond = 0b11#2) (fun _ => .rfl) (fun _ => rfl)
      (ite_readsNoMode (fun s => conditionHolds cond s.ac.value = true) (fun _ => .rfl) (fun _ => rfl) fun _ => rfl))
  | input | halt | jump _ | clear => exact withoutOperand_readsNoMode fun _ => rfl

theorem boundaryCheck_withoutModes (s : State) : boundaryCheck (withoutModes s) = withoutModes (boundaryCheck s) := by
  unfold boundaryCheck
  change (if s.ctl = .runToBreakpoint ∧ s.mstate = .running ∧ onBreakpoint s = true then _ else _) = _
  split <;> rfl

theorem decodeAndExecute_readsNoMode : ReadsNoMode decodeAndExecute := by
  intro s
  have hir : (withoutModes s).ir.value = s.ir.value := rfl
  unfold decodeAndExecute
  rw [hir]
  split
  · rfl
  · rw [exec_readsNoMode]
    cases exec _ s with
    | next t => exact congrArg Host.Outcome.next (boundaryCheck_withoutModes t)
    | fault _ | refused _ => rfl

theorem cycle_readsNoMode : ReadsNoMode cycle := by
  intro s
  rw [cycle_eq, cycle_eq]
  exact decodeAndExecute_readsNoMode (fetched s)

theorem letRun_readsNoMode : ReadsNoMode letRun :=
  ite_readsNoMode (runsFreely · = true) (fun _ => .rfl) cycle_readsNoMode fun _ => rfl

/-! ### A command reads no mode, one with a text apart -/

theorem hostReset_withoutModes (s : State) : withoutModes (hostReset (withoutModes s)) = withoutModes (hostReset s) := by
  unfold hostReset
  change withoutModes (if s.mstate = .uninitialized then _ else _) = _
  split <;> rfl

theorem loadRecords_withoutModes (rs : List LoadedRecord) (s : State) :
    loadRecords (withoutModes s) rs = withoutModes (loadRecords s rs) := by
  induction rs generalizing s with
  | nil => rfl
  | cons r rs ih => exact ih (loadRecord s r)

theorem acceptImage_withoutModes (rs : List LoadedRecord) (s : State) :
    acceptImage (withoutModes s) rs = withoutModes (acceptImage s rs) := by
  cases rs with
  | nil => rfl
  | cons r rs => simp only [acceptImage, loadRecords_withoutModes]; rfl

theorem loadImage_withoutModes (image : Image) (s : State) :
    (loadImage image (withoutModes s)).1 = withoutModes (loadImage image s).1 ∧
      (loadImage image (withoutModes s)).2 = (loadImage image s).2 := by
  unfold loadImage
  split
  · exact ⟨acceptImage_withoutModes _ (resetBlock s), rfl⟩
  · exact ⟨rfl, rfl⟩

/-- `set_mode` writes what forgetting the modes forgets. -/
theorem setRegMode_withoutModes (r : Reg) (m : Mode) (s : State) : withoutModes (setRegMode r m s) = withoutModes s := by
  obtain (_ | _ | _ | _ | _) | (_ | _) := r <;> rfl

theorem writeData_withoutModes (d : DataReg) (v : Word16) (s : State) :
    writeData d v (withoutModes s) = withoutModes (writeData d v s) := by
  cases d <;> rfl

theorem writeAddr_withoutModes (a : AddrReg) (n : Int) (s : State) :
    writeAddr a n (withoutModes s) = withoutModes (writeAddr a n s) := by
  cases a <;> rfl

theorem supplyCommand_withoutModes (v : Word16) (s : State) :
    supplyCommand v (withoutModes s) = withoutModes (supplyCommand v s) :=
  boundaryCheck_withoutModes (((s.setINPUT v).setAC v).setMState .running)

/-- Up to modes, the effect of a command does not depend on the modes it meets. -/
theorem commandEffect_withoutModes (c : Command) (s : State) (hc : readsMode (some c) = false) :
    withoutModes (commandEffect c (withoutModes s)).1 = withoutModes (commandEffect c s).1 ∧
      (commandEffect c (withoutModes s)).2 = (commandEffect c s).2 := by
  have commutes : ∀ {u v : State}, u = withoutModes v → withoutModes u = withoutModes v := by
    rintro u v rfl
    exact withoutModes_idem v
  cases c with
  | reset => exact ⟨hostReset_withoutModes s, rfl⟩
  | load image => exact ⟨commutes (loadImage_withoutModes image s).1, (loadImage_withoutModes image s).2⟩
  | supply v => exact ⟨commutes (supplyCommand_withoutModes v s), rfl⟩
  | writeData d v => exact ⟨commutes (writeData_withoutModes d v s), rfl⟩
  | writeAddr a n => exact ⟨commutes (writeAddr_withoutModes a n s), rfl⟩
  | writeRegText r text => cases hc
  | setMode r m =>
    refine ⟨?_, rfl⟩
    calc withoutModes (setRegMode r m (withoutModes s))
        = withoutModes (withoutModes s) := setRegMode_withoutModes r m _
      _ = withoutModes s := withoutModes_idem s
      _ = withoutModes (setRegMode r m s) := (setRegMode_withoutModes r m s).symm
  | run _ | step | pause | stop | inputInvalid | setBreakpoint _ _ | clearBreakpoints => exact ⟨commutes rfl, rfl⟩

theorem tell_withoutModes (s : State) (r : Reply) : (withoutModes s).tell r = withoutModes (s.tell r) := rfl

theorem hostCommand_withoutModes (c : Command) (s : State) (hc : readsMode (some c) = false) :
    resultWithoutModes (hostCommand c (withoutModes s)) = resultWithoutModes (hostCommand c s) := by
  have haccepts : accepts c (withoutModes s) = accepts c s := by cases c <;> rfl
  unfold hostCommand
  rw [haccepts]
  split
  · obtain ⟨hstate, hreply⟩ := commandEffect_withoutModes c s hc
    by_cases hs : c = .step
    · subst hs
      exact (congrArg resultWithoutModes (cycle_readsNoMode ((stepCommand s).tell .accepted))).trans
        (resultWithoutModes_idem _)
    · simp only [afterCommand, if_neg hs, resultWithoutModes, ← tell_withoutModes, hstate, hreply]
  · exact congrArg Host.Outcome.next (withoutModes_idem (s.tell .refused))

theorem nextCommand_withoutModes (s : State) : nextCommand (withoutModes s) = nextCommand s := rfl

/-- Unless the next command parses a text, a step is the same, up to modes, on the state without its modes. -/
theorem step_withoutModes (s : State) (h : readsMode (nextCommand s) = false) :
    resultWithoutModes (step (withoutModes s)) = resultWithoutModes (step s) := by
  have waiting (u : State) : resultWithoutModes (letRun (withoutModes u)) = resultWithoutModes (letRun u) :=
    (congrArg resultWithoutModes (letRun_readsNoMode u)).trans (resultWithoutModes_idem _)
  have hagenda : (withoutModes s).agenda = s.agenda := rfl
  unfold nextCommand at h
  unfold step
  rw [hagenda]
  match hs : s.agenda with
  | [] => exact waiting s
  | .letRun :: rest => exact waiting { s with agenda := rest }
  | .command c :: rest =>
    rw [hs] at h
    exact hostCommand_withoutModes c { s with agenda := rest } h

/-! ### Only `set_mode` writes a mode -/

theorem resetBlock_sameModes (s : State) : SameModes s (resetBlock s) := SameModes.refl s

theorem loadImage_sameModes (image : Image) (s : State) : SameModes s (loadImage image s).1 := by
  unfold loadImage
  split
  · rename_i rs _
    cases rs with
    | nil => exact resetBlock_sameModes s
    | cons r rs =>
      obtain ⟨m, l, h⟩ := loadRecords_frame (r :: rs) (resetBlock s)
      simp only [acceptImage, h]
      exact SameModes.refl s
  · exact resetBlock_sameModes s

theorem writeData_sameModes (d : DataReg) (v : Word16) (s : State) : SameModes s (writeData d v s) := by
  cases d <;> exact SameModes.refl s

theorem writeAddr_sameModes (a : AddrReg) (n : Int) (s : State) : SameModes s (writeAddr a n s) := by
  cases a <;> exact SameModes.refl s

theorem commandEffect_sameModes {c : Command} {s : State} (hs : s.mstate ≠ .uninitialized)
    (hc : ∀ r m, c ≠ .setMode r m) : SameModes s (commandEffect c s).1 := by
  cases c with
  | reset =>
    simp only [commandEffect, hostReset, if_neg hs]
    exact resetBlock_sameModes s
  | load image => exact loadImage_sameModes image s
  | supply v => exact (boundaryCheck_frame _).modes
  | writeData d v => exact writeData_sameModes d v s
  | writeAddr a n => exact writeAddr_sameModes a n s
  | writeRegText r text =>
    change SameModes s (writeText r text s).1
    obtain h | ⟨d, v, -, h⟩ | ⟨a, n, -, h⟩ := writeText_cases r text s <;> rw [h]
    · exact SameModes.refl s
    · exact writeData_sameModes d v s
    · exact writeAddr_sameModes a n s
  | setMode r m => exact absurd rfl (hc r m)
  | run _ | step | pause | stop | inputInvalid | setBreakpoint _ _ | clearBreakpoints => exact SameModes.refl s

theorem step_sameModes {s t : State} (h : step s = .next t) (hs : s.mstate ≠ .uninitialized)
    (hn : ∀ r m, nextCommand s ≠ some (.setMode r m)) : SameModes s t := by
  cases step_next h with
  | waits _ ht => exact ht ▸ SameModes.refl s
  | refuses _ _ _ ht => exact ht ▸ SameModes.refl s
  | obeys c hc _ _ ht =>
    subst ht
    exact commandEffect_sameModes (s := moveTaken s) hs fun r m hm => hn r m (hm ▸ hc)
  | runsCycle _ _ hc => exact (cycle_frame hc).modes
  | stepsCycle _ _ hc => exact (cycle_frame hc).modes

/-- Settles O34: two states that are equal without their modes step as that one state does, and the second part is
`step_sameModes`. -/
theorem displayModesNeverAffectExecution : Obligations.DisplayModesNeverAffectExecution := by
  refine ⟨fun s s' heq hs => ?_, fun s t h hc hn => step_sameModes h hc hn⟩
  have hs' : readsMode (nextCommand s') = false := by
    rwa [← nextCommand_withoutModes, ← heq, nextCommand_withoutModes]
  calc resultWithoutModes (step s)
      = resultWithoutModes (step (withoutModes s)) := (step_withoutModes s hs).symm
    _ = resultWithoutModes (step (withoutModes s')) := by rw [heq]
    _ = resultWithoutModes (step s') := step_withoutModes s' hs'

end Sys2Proof.Machine
end

section
/-! SUPPORT. 20_memory.md R60 to R64 and R78: memory access by address, canonical memories by their cells, and what an instruction, a command and a step do to memory. -/

namespace Sys2Proof.Machine

/-! ### Access by address -/

theorem memRead_in_range {a : Int} (h : 0 ≤ a ∧ a ≤ 4095) (s : State) (k : Word16 → Result) :
    memRead a s k = k (s.mem.read a.toNat) := if_pos h

theorem memRead_out_of_range {a : Int} (h : ¬(0 ≤ a ∧ a ≤ 4095)) (s : State) (k : Word16 → Result) :
    memRead a s k = .next (raiseFatal .addressOutOfRange s) := if_neg h

/-- Settles O57: the range test decides, and a write in range sets its cell and leaves the others. -/
theorem memoryAccessChecksItsRange : Obligations.MemoryAccessChecksItsRange := by
  intro a s
  refine ⟨fun k => ⟨fun h0 h1 => ?_, fun hout => ?_⟩, fun v k => ⟨fun h0 h1 hwf => ?_, fun hout => ?_⟩⟩
  · exact memRead_in_range ⟨h0, h1⟩ s k
  · exact memRead_out_of_range (by omega) s k
  · exact ⟨s.mem.write a.toNat v, memWrite_in_range ⟨h0, h1⟩ v s k, Memory.read_write_same a.toNat v hwf,
      fun b hb => Memory.read_write_other s.mem v hb⟩
  · exact memWrite_out_of_range (by omega) v s k

/-- Settles O56: an access in range is a read or a write of the cell. -/
theorem readReturnsTheLastWrite : Obligations.ReadReturnsTheLastWrite := by
  refine ⟨fun a v s k h0 h1 hwf => ?_, fun a b v s k ha0 ha1 hb0 hb1 hne => ?_, fun _ => rfl⟩
  · rw [memWrite_in_range ⟨h0, h1⟩, memRead_in_range ⟨h0, h1⟩, Memory.read_write_same a.toNat v hwf]
  · rw [memWrite_in_range ⟨ha0, ha1⟩, memRead_in_range ⟨hb0, hb1⟩, memRead_in_range ⟨hb0, hb1⟩,
      Memory.read_write_other s.mem v (by omega)]

/-! ### Canonical memories -/

theorem Memory.wfFrom_cons {lo a : Nat} {w : Word16} {m : Memory} :
    Memory.wfFrom lo ((a, w) :: m) = true ↔
      (lo ≤ a ∧ a < Config.memorySize ∧ w ≠ 0#16) ∧ m.wfFrom (a + 1) = true := by
  simp only [Memory.wfFrom, Bool.and_eq_true, decide_eq_true_eq]

theorem Memory.read_cons_same (a : Nat) (w : Word16) (m : Memory) : Memory.read ((a, w) :: m) a = w := if_pos rfl

theorem Memory.read_cons_other {a c : Nat} (w : Word16) (m : Memory) (h : c ≠ a) :
    Memory.read ((a, w) :: m) c = m.read c := if_neg h

/-- The first listed cell is the lowest that does not read 0. -/
theorem Memory.head_le_of_read_ne_zero {lo a c : Nat} {w : Word16} {m : Memory}
    (h : Memory.wfFrom lo ((a, w) :: m) = true) (hc : Memory.read ((a, w) :: m) c ≠ 0#16) : a ≤ c := by
  obtain ⟨⟨-, ha⟩, hm⟩ := Memory.wfFrom_cons.mp h
  have hfrom : Memory.wfFrom a ((a, w) :: m) = true := Memory.wfFrom_cons.mpr ⟨⟨Nat.le_refl a, ha⟩, hm⟩
  exact Nat.le_of_not_lt fun hlt => hc (Memory.read_below hfrom hlt)

/-- The first listed cell does not read 0. -/
theorem Memory.read_head_ne_zero {lo a : Nat} {w : Word16} {m : Memory}
    (h : Memory.wfFrom lo ((a, w) :: m) = true) : Memory.read ((a, w) :: m) a ≠ 0#16 := by
  rw [Memory.read_cons_same]
  exact (Memory.wfFrom_cons.mp h).1.2.2

theorem Memory.ext_of_wfFrom {m n : Memory} {lo lo' : Nat} (hm : m.wfFrom lo = true) (hn : n.wfFrom lo' = true)
    (h : ∀ a, m.read a = n.read a) : m = n := by
  induction m generalizing n lo lo' with
  | nil =>
    cases n with
    | nil => rfl
    | cons q n => exact absurd (h q.1).symm (Memory.read_head_ne_zero hn)
  | cons p m ih =>
    obtain ⟨a, w⟩ := p
    cases n with
    | nil => exact absurd (h a) (Memory.read_head_ne_zero hm)
    | cons q n =>
      obtain ⟨b, x⟩ := q
      have hab : a = b := by
        apply Nat.le_antisymm
        · exact Memory.head_le_of_read_ne_zero hm (h b ▸ Memory.read_head_ne_zero hn)
        · exact Memory.head_le_of_read_ne_zero hn (h a ▸ Memory.read_head_ne_zero hm)
      subst hab
      have hw : w = x := by simpa only [Memory.read_cons_same] using h a
      have hm' := (Memory.wfFrom_cons.mp hm).2
      have hn' := (Memory.wfFrom_cons.mp hn).2
      have htail : ∀ c, Memory.read m c = Memory.read n c := by
        intro c
        by_cases hc : c = a
        · rw [hc, Memory.read_below hm' (Nat.lt_succ_self a), Memory.read_below hn' (Nat.lt_succ_self a)]
        · simpa only [Memory.read_cons_other _ _ hc] using h c
      rw [hw, ih hm' hn' htail]

/-- Settles O58, by induction along both lists: their first cells agree, and so do their tails. -/
theorem memoriesWithEqualCellsAreEqual : Obligations.MemoriesWithEqualCellsAreEqual :=
  fun _ _ hm hn h => Memory.ext_of_wfFrom hm hn h

/-! ### What an instruction does to memory -/

/-- The word an instruction stores, where it stores one: the incremented PC for JnS, AC for Store and StoreI. -/
def storedWord (i : Instr) (s : State) : Word16 :=
  match i with
  | .jnS _ => (s.pc.value + 1#12).setWidth 16
  | _ => s.ac.value

theorem addr_in_range (a : Addr12) : (0 : Int) ≤ a.toNat ∧ (a.toNat : Int) ≤ 4095 := by
  have := addr_toNat_le a
  omega

/-- Everything an instruction can do to memory: nothing, at the top of memory or without a store address in range, or
one write of its word at that address. -/
theorem exec_mem {i : Instr} {s t : State} (h : exec i s = .next t) :
    (t.mem = s.mem ∧ (s.pc.value = 4095#12 ∨ ∀ q, storeAddress i s = some q → ¬(0 ≤ q ∧ q ≤ 4095))) ∨
      ∃ q, storeAddress i s = some q ∧ (0 ≤ q ∧ q ≤ 4095) ∧ t.mem = s.mem.write q.toNat (storedWord i s) := by
  obtain ⟨-, ⟨hp, rfl⟩ | ⟨-, h⟩⟩ := exec_next h
  · exact .inl ⟨decodedFor_mem i s, .inl hp⟩
  · cases i with
    | jnS x | store x =>
      obtain rfl := h
      exact .inr ⟨x.toNat, rfl, addr_in_range x, rfl⟩
    | storeI x =>
      obtain ⟨hq, rfl⟩ | ⟨hq, rfl⟩ := h
      · exact .inr ⟨_, rfl, hq, rfl⟩
      · exact .inl ⟨rfl, .inr fun q hs => Option.some.inj hs ▸ hq⟩
    | skipCond _ => obtain ⟨-, rfl⟩ | ⟨-, -, rfl⟩ | ⟨-, -, rfl⟩ := h <;> exact .inl ⟨rfl, .inr nofun⟩
    | load _ | add _ | subt _ | input | output | halt | jump _ | clear | addI _ | jumpI _ | loadI _ =>
      obtain rfl := h
      exact .inl ⟨rfl, .inr nofun⟩

/-- A cell that an instruction changes is its store address. -/
theorem storeAddress_of_exec_read_ne {i : Instr} {s t : State} {a : Nat} (h : exec i s = .next t)
    (hne : t.mem.read a ≠ s.mem.read a) : storeAddress i s = some (a : Int) ∧ a ≤ 4095 := by
  obtain ⟨hm, -⟩ | ⟨q, hs, hq, hm⟩ := exec_mem h
  · exact absurd (congrArg (·.read a) hm) hne
  · have ha : a = q.toNat := by
      by_contra hc
      exact hne (by rw [hm, Memory.read_write_other s.mem _ hc])
    exact ⟨by rw [hs, ha, Int.toNat_of_nonneg hq.1], by omega⟩

/-- Settles O28: a changed cell would be a store address. -/
theorem formsThatStoreNothingKeepMemory : Obligations.FormsThatStoreNothingKeepMemory := by
  intro i s t hs h a
  by_contra hne
  obtain ⟨ha, -⟩ := storeAddress_of_exec_read_ne h hne
  exact absurd (hs.symm.trans ha) nofun

/-- Settles O29: a changed cell is the store address, and in 0..4095. -/
theorem storingFormsChangeOneCell : Obligations.StoringFormsChangeOneCell := by
  intro i s t q hs h
  have changed {a : Nat} (hne : t.mem.read a ≠ s.mem.read a) : (a : Int) = q ∧ a ≤ 4095 := by
    obtain ⟨ha, hle⟩ := storeAddress_of_exec_read_ne h hne
    exact ⟨Option.some.inj (ha.symm.trans hs), hle⟩
  refine ⟨fun a ha => ?_, fun hq a => ?_⟩
  · by_contra hne
    exact ha (changed hne).1
  · by_contra hne
    obtain ⟨haq, hle⟩ := changed hne
    omega

/-- An instruction that completes leaves its word at its store address, where that is in range. -/
theorem exec_read_storeAddress {i : Instr} {s t : State} {a : Nat} (h : exec i s = .next t)
    (hp : s.pc.value ≠ 4095#12) (hwf : s.mem.wf = true) (hs : storeAddress i s = some (a : Int)) (ha : a ≤ 4095) :
    t.mem.read a = storedWord i s := by
  obtain ⟨-, htop | hout⟩ | ⟨q, hq, -, hm⟩ := exec_mem h
  · exact absurd htop hp
  · exact absurd ⟨by omega, by omega⟩ (hout a hs)
  · obtain rfl : (a : Int) = q := Option.some.inj (hs.symm.trans hq)
    rw [hm, Int.toNat_natCast, Memory.read_write_same a _ hwf]

/-- Settles O55: the fetch reads the cell at PC, which holds the stored word. -/
theorem laterFetchesSeeTheStore : Obligations.LaterFetchesSeeTheStore := by
  intro i s t u q _ hp hwf hs h hmem hpc
  have hstored := exec_read_storeAddress h hp hwf (hpc ▸ hs) (addr_toNat_le u.pc.value)
  rw [fetched_ir_value, State.cell, hmem, hstored]
  cases i <;> rfl

/-! ### What a step does to memory -/

theorem writeData_mem (d : DataReg) (v : Word16) (s : State) : (writeData d v s).mem = s.mem := by
  cases d <;> rfl

theorem writeAddr_mem (a : AddrReg) (n : Int) (s : State) : (writeAddr a n s).mem = s.mem := by
  cases a <;> rfl

theorem writeText_mem (r : Reg) (text : Text) (s : State) : (writeText r text s).1.mem = s.mem := by
  obtain h | ⟨d, v, -, h⟩ | ⟨a, n, -, h⟩ := writeText_cases r text s <;> rw [h]
  · exact writeData_mem d v s
  · exact writeAddr_mem a n s

/-- No command but reset and load has an effect on memory. -/
theorem commandEffect_mem (c : Command) (s : State) (hr : c ≠ .reset) (hl : ∀ image, c ≠ .load image) :
    (commandEffect c s).1.mem = s.mem := by
  cases c with
  | reset => exact absurd rfl hr
  | load image => exact absurd rfl (hl image)
  | supply v => exact boundaryCheck_mem _
  | writeData d v => exact writeData_mem d v s
  | writeAddr a n => exact writeAddr_mem a n s
  | writeRegText r text => exact writeText_mem r text s
  | setMode r m => obtain (_ | _ | _ | _ | _) | (_ | _) := r <;> rfl
  | run _ | step | pause | stop | inputInvalid | setBreakpoint _ _ | clearBreakpoints => rfl

/-- The store address depends on memory alone. -/
theorem storeAddress_congr (i : Instr) {s t : State} (h : t.mem = s.mem) : storeAddress i t = storeAddress i s := by
  cases i with
  | storeI x => simp only [storeAddress, pointerFollowed, operandFetched, State.cell, h]
  | _ => rfl

/-- A cell that a cycle changes is the store address of the instruction it runs. -/
theorem storeAddress_of_cycle_read_ne {s t : State} {a : Nat} (h : cycle s = .next t)
    (hne : t.mem.read a ≠ s.mem.read a) :
    ∃ i, decode (s.cell s.pc.value) = .ok i ∧ storeAddress i (fetched s) = some (a : Int) := by
  obtain ⟨-, rfl⟩ | ⟨i, u, hd, hu, rfl⟩ := cycle_next h
  · exact absurd rfl hne
  · rw [boundaryCheck_mem] at hne
    exact ⟨i, hd, (storeAddress_of_exec_read_ne hu hne).1⟩

/-- Settles O36, by the cases of a step. -/
theorem onlyStoresAndLoadsWriteMemory : Obligations.OnlyStoresAndLoadsWriteMemory := by
  intro s t a h hne
  cases step_next h with
  | waits _ ht => exact absurd (ht ▸ rfl) hne
  | refuses _ _ _ ht => exact absurd (ht ▸ rfl) hne
  | obeys c hn _ _ ht =>
    subst ht
    by_contra hc
    have hr : c ≠ .reset := fun he => hc (.inl (he ▸ hn))
    have hl : ∀ image, c ≠ .load image := fun image he => hc (.inr (.inl ⟨image, he ▸ hn⟩))
    exact hne (congrArg (·.read a) (commandEffect_mem c (moveTaken s) hr hl))
  | runsCycle hn _ hc =>
    obtain ⟨i, hd, hs⟩ := storeAddress_of_cycle_read_ne hc hne
    exact .inr (.inr ⟨.inl hn, i, hd, (storeAddress_congr i rfl).trans hs⟩)
  | stepsCycle hn _ hc =>
    obtain ⟨i, hd, hs⟩ := storeAddress_of_cycle_read_ne hc hne
    exact .inr (.inr ⟨.inr hn, i, hd, (storeAddress_congr i rfl).trans hs⟩)

end Sys2Proof.Machine
end

section
/-! SUPPORT. 30_encoding.md R90 to R99: the fields of a word as numbers, what the decoder reads of it, and the words of opcode 15. -/

namespace Sys2Proof.Machine

/-! ### The fields of a word as numbers -/

theorem opcodeField_toNat (w : Word16) : (opcodeField w).toNat = w.toNat / 4096 := by
  have := w.isLt
  simp only [opcodeField, BitVec.extractLsb'_toNat, Nat.shiftRight_eq_div_pow]
  omega

theorem condField_toNat (w : Word16) : (condField w).toNat = w.toNat / 1024 % 4 := by
  simp only [condField, BitVec.extractLsb'_toNat, Nat.shiftRight_eq_div_pow]

/-- The upper six bits of a word are its opcode and its condition bits. -/
theorem toNat_div_1024 (w : Word16) : w.toNat / 1024 = 4 * (opcodeField w).toNat + (condField w).toNat := by
  rw [opcodeField_toNat, condField_toNat]
  omega

/-! ### What the decoder reads, by opcode -/

theorem decode_input {w : Word16} (h : (opcodeField w).toNat = 5) : decode w = .ok .input := by
  simp [decode, h]

theorem decode_output {w : Word16} (h : (opcodeField w).toNat = 6) : decode w = .ok .output := by
  simp [decode, h]

theorem decode_halt {w : Word16} (h : (opcodeField w).toNat = 7) : decode w = .ok .halt := by
  simp [decode, h]

theorem decode_skipCond {w : Word16} (h : (opcodeField w).toNat = 8) : decode w = .ok (.skipCond (condField w)) := by
  simp [decode, h]

theorem decode_clear {w : Word16} (h : (opcodeField w).toNat = 10) : decode w = .ok .clear := by
  simp [decode, h]

/-- Opcode 15, the only one rejected, is the words from 0xF000 (30_encoding.md R96). -/
theorem decode_illegalOpcode_iff (w : Word16) : decode w = .error .illegalOpcode ↔ 0xF000 ≤ w.toNat := by
  have hw := w.isLt
  have hop := opcodeField_toNat w
  unfold decode
  split <;> simp only [imp_false, reduceCtorEq, true_iff, false_iff] at * <;> omega

/-- Whether all twelve operand bits belong to the instruction: the operand-requiring forms and Jump (30_encoding.md R98). -/
abbrev HasAddress (i : Instr) : Prop := operandOf i ≠ none ∨ ∃ x, i = .jump x

/-- What the encoding of a decoded instruction keeps of the word: its opcode, its operand where the form has an address,
and its condition bits where the form is SkipCond. -/
theorem encode_of_decode {w : Word16} {i : Instr} (h : decode w = .ok i) :
    ∃ x, encode i = wordOf (opcodeField w) x ∧ (HasAddress i → x = operandField w) ∧
      ∀ cond, i = .skipCond cond → x = condField w ++ 0#10 := by
  unfold decode at h
  split at h <;> cases h
  all_goals
    rename_i hop
    refine ⟨_, congrArg (wordOf · _) (BitVec.eq_of_toNat_eq hop.symm), ?_⟩
    simp [HasAddress, operandOf]

/-! ### The statements on decoding and encoding -/

/-- Settles O3, by the round trip of each form. -/
theorem decodeInvertsEncode : Obligations.DecodeInvertsEncode := by
  intro i
  cases i with
  | jnS x => exact Laws.RoundTrip.jnS x
  | load x => exact Laws.RoundTrip.load x
  | store x => exact Laws.RoundTrip.store x
  | add x => exact Laws.RoundTrip.add x
  | subt x => exact Laws.RoundTrip.subt x
  | input => exact Laws.RoundTrip.input
  | output => exact Laws.RoundTrip.output
  | halt => exact Laws.RoundTrip.halt
  | skipCond cond => exact Laws.RoundTrip.skipCond cond
  | jump x => exact Laws.RoundTrip.jump x
  | clear => exact Laws.RoundTrip.clear
  | addI x => exact Laws.RoundTrip.addI x
  | jumpI x => exact Laws.RoundTrip.jumpI x
  | loadI x => exact Laws.RoundTrip.loadI x
  | storeI x => exact Laws.RoundTrip.storeI x

/-- Settles O2: opcode 15 is the only reject, and 0x8C00 to 0x8FFF have opcode 8 and both condition bits set. -/
theorem decodingIsTotal : Obligations.DecodingIsTotal := by
  intro w
  refine ⟨decode_illegalOpcode_iff w, fun hlt => ?_, fun hlo hhi => ?_⟩
  · cases hd : decode w with
    | ok i => exact ⟨i, rfl⟩
    | error e =>
      cases e
      exact absurd ((decode_illegalOpcode_iff w).mp hd) (by omega)
  · have hop : (opcodeField w).toNat = 8 := by
      rw [opcodeField_toNat]
      omega
    have hcond : condField w = 0b11#2 := by
      apply BitVec.eq_of_toNat_eq
      rw [condField_toNat, BitVec.toNat_ofNat]
      omega
    rw [decode_skipCond hop, hcond]

/-- Settles O4: the encoding keeps the fields the form reads, and those fields make up the bits compared. -/
theorem encodeAgreesOnTheBitsRead : Obligations.EncodeAgreesOnTheBitsRead := by
  intro w i hd
  obtain ⟨x, henc, haddr, hcond⟩ := encode_of_decode hd
  have hop : opcodeField (encode i) = opcodeField w := by rw [henc, opcodeField_wordOf]
  refine ⟨?_, fun h => ?_, fun cond h => ?_⟩
  · rw [← opcodeField_toNat, ← opcodeField_toNat, hop]
  · rw [henc, haddr h, wordOf_fields]
  · have hc : condField (encode i) = condField w := by rw [henc, hcond cond h, condField_wordOf]
    rw [toNat_div_1024, toNat_div_1024, hop, hc]

/-- Settles O5: the four opcodes decode without the operand field, and SkipCond with its condition bits only. -/
theorem ignoredBitsDoNotMatter : Obligations.IgnoredBitsDoNotMatter := by
  intro w w'
  simp only [← opcodeField_toNat, toNat_div_1024]
  refine ⟨fun heq hop => ?_, fun heq hop => ?_⟩
  · obtain h | h | h | h := hop <;> have h' := heq.symm.trans h
    · rw [decode_input h, decode_input h']
    · rw [decode_output h, decode_output h']
    · rw [decode_halt h, decode_halt h']
    · rw [decode_clear h, decode_clear h']
  · have hc := (condField w).isLt
    have hc' := (condField w').isLt
    have hcond : condField w = condField w' := BitVec.eq_of_toNat_eq (by omega)
    rw [decode_skipCond hop, decode_skipCond (by omega), hcond]

/-- Settles O1: each of the sixteen words is decoded by evaluation. -/
theorem specExampleWordsDecode : Obligations.SpecExampleWordsDecode := by
  unfold Obligations.SpecExampleWordsDecode
  decide

/-! ### A word of opcode 15 in a cycle -/

/-- Where a cycle runs without a command, the step is that cycle. -/
theorem step_of_cycleRuns {s : State} (h : CycleRuns s) : step s = cycle (moveTaken s) := by
  obtain ⟨hrun, hctl, hn⟩ := h
  obtain ⟨c, rest, hag, -⟩ | ⟨-, hs⟩ := step_cases s
  · simp [nextCommand, hag] at hn
  · exact hs.trans (if_pos ((runsFreely_iff (moveTaken s)).mpr ⟨hrun, hctl⟩))

/-- A cycle that fetches an illegal word ends before its operand fetch and its increment (40_cycle.md R113). -/
theorem cycle_illegalOpcode {s : State} (h : decode (s.cell s.pc.value) = .error .illegalOpcode) :
    cycle s = .next (raiseFatal .illegalOpcode (fetched s)) := by
  rw [cycle_eq, decodeAndExecute, fetched_ir_value, h]

/-- Settles O7: the step is a cycle, and its fetched word is illegal. -/
theorem opcodeFifteenHaltsTheMachine : Obligations.OpcodeFifteenHaltsTheMachine := by
  intro s hrun hword
  have hd : decode (s.cell s.pc.value) = .error .illegalOpcode := (decode_illegalOpcode_iff _).mpr hword
  exact (step_of_cycleRuns hrun).trans (cycle_illegalOpcode (s := moveTaken s) hd)

end Sys2Proof.Machine
end

section
/-! SUPPORT. 40_cycle.md R110 to R119: a cycle by the word it fetches, the fault at the top of memory, and what an instruction leaves unchanged. -/

namespace Sys2Proof.Machine

/-! ### A cycle, and no cycle -/

/-- A cycle that fetches a legal word runs its instruction and ends with the boundary check (40_cycle.md R110). -/
theorem cycle_of_decode {s : State} {i : Instr} (h : decode (s.cell s.pc.value) = .ok i) :
    cycle s = endCycle (exec i (fetched s)) := by
  rw [cycle_eq, decodeAndExecute, fetched_ir_value, h]

/-- Settles O6: the step is a cycle, and its fetched word decodes. -/
theorem stepRunsTheDecodedInstruction : Obligations.StepRunsTheDecodedInstruction :=
  fun s _ hrun hd => (step_of_cycleRuns hrun).trans (cycle_of_decode (s := moveTaken s) hd)

/-- Settles O39: the step lets the machine run, which in such a state leaves it as it is. -/
theorem noCycleRunsOutsideRunning : Obligations.NoCycleRunsOutsideRunning := by
  intro s hn hwait
  obtain ⟨c, rest, hag, -⟩ | ⟨-, hs⟩ := step_cases s
  · simp [nextCommand, hag] at hn
  · obtain ⟨hrun, hctl, -⟩ | ⟨-, hl⟩ := letRun_cases (moveTaken s)
    · exact absurd hwait (not_or.mpr ⟨not_not.mpr hrun, hctl⟩)
    · exact hs.trans hl

/-! ### The fault at the top of memory -/

@[simp] theorem decodedFor_ac (i : Instr) (s : State) : (decodedFor i s).ac = s.ac := by
  unfold decodedFor
  split <;> rfl

@[simp] theorem decodedFor_pc (i : Instr) (s : State) : (decodedFor i s).pc = s.pc := by
  unfold decodedFor
  split <;> rfl

/-- At the top of memory the increment's check ends every instruction before its execute phase (40_cycle.md R115). -/
theorem exec_top {s : State} (hc : s.mstate ≠ .uninitialized) (hp : s.pc.value = 4095#12) (i : Instr) :
    exec i s = .next (raiseFatal .maxProgramReached (decodedFor i s)) := by
  cases i with
  | jnS x | load x | store x | add x | subt x | addI x | jumpI x | loadI x | storeI x => exact withOperand_top hc hp x _
  | input | output | halt | skipCond _ | jump _ | clear => exact withoutOperand_top hc hp _

/-- Settles O8, by the check of the increment. -/
theorem everyInstructionFaultsAtTheTop : Obligations.EveryInstructionFaultsAtTheTop :=
  fun i _ hrun hp => exec_top (by simp [hrun]) hp i

/-- The boundary check does nothing after a fatal error, which leaves Running (60_exceptions.md R236). -/
theorem boundaryCheck_raiseFatal (c : ErrorCode) (s : State) : boundaryCheck (raiseFatal c s) = raiseFatal c s :=
  if_neg (by simp)

/-- A cycle that fetches a legal word at the top of memory ends in the increment's fault. -/
theorem cycle_top {s : State} {i : Instr} (hrun : s.mstate = .running) (hp : s.pc.value = 4095#12)
    (hd : decode (s.cell s.pc.value) = .ok i) :
    cycle s = .next (raiseFatal .maxProgramReached (decodedFor i (fetched s))) := by
  have hc : (fetched s).mstate ≠ .uninitialized := by simp [fetched, hrun]
  rw [cycle_of_decode hd, exec_top hc hp, endCycle, boundaryCheck_raiseFatal]

/-- Settles O9: the fetched word is illegal, or its instruction faults at the increment. -/
theorem noCycleCompletesAtTheTop : Obligations.NoCycleCompletesAtTheTop := by
  intro s hrun hp
  rw [← hp, step_of_cycleRuns hrun]
  cases hd : decode (s.cell s.pc.value) with
  | error e =>
    have hword := (decode_illegalOpcode_iff _).mp hd
    exact ⟨_, cycle_illegalOpcode (s := moveTaken s) hd, rfl, rfl, rfl, fun _ => rfl, by rw [if_pos hword]; rfl⟩
  | ok i =>
    have hword : ¬0xF000 ≤ (s.cell s.pc.value).toNat := by
      rw [← decode_illegalOpcode_iff, hd]
      exact nofun
    refine ⟨_, cycle_top (s := moveTaken s) hrun.1 hp hd, rfl, decodedFor_pc i _, decodedFor_ac i _, fun a => ?_, ?_⟩
    · exact congrArg (·.read a) (decodedFor_mem i _)
    · rw [if_neg hword]
      rfl

/-! ### What an instruction leaves unchanged -/

@[simp] theorem decodedFor_output (i : Instr) (s : State) : (decodedFor i s).output = s.output := by
  unfold decodedFor
  split <;> rfl

@[simp] theorem decodedFor_fatal (i : Instr) (s : State) : (decodedFor i s).fatal = s.fatal := by
  unfold decodedFor
  split <;> rfl

theorem executed_ac {i : Instr} {u t : State} (h : Executed i u t) (hi : writesAC i = false) : t.ac = u.ac := by
  cases i with
  | jnS _ | load _ | add _ | subt _ | clear | addI _ | loadI _ => exact absurd hi nofun
  | skipCond _ => obtain ⟨-, rfl⟩ | ⟨-, -, rfl⟩ | ⟨-, -, rfl⟩ := h <;> rfl
  | storeI _ => obtain ⟨-, rfl⟩ | ⟨-, rfl⟩ := h <;> rfl
  | store _ | input | output | halt | jump _ | jumpI _ =>
    obtain rfl := h
    rfl

theorem executed_output {i : Instr} {u t : State} (h : Executed i u t) (hi : i ≠ .output) : t.output = u.output := by
  cases i with
  | output => exact absurd rfl hi
  | skipCond _ => obtain ⟨-, rfl⟩ | ⟨-, -, rfl⟩ | ⟨-, -, rfl⟩ := h <;> rfl
  | storeI _ => obtain ⟨-, rfl⟩ | ⟨-, rfl⟩ := h <;> rfl
  | jnS _ | load _ | store _ | add _ | subt _ | input | halt | jump _ | clear | addI _ | jumpI _ | loadI _ =>
    obtain rfl := h
    rfl

/-- In an execute phase the pointer step alone writes MAR and MBR. -/
theorem executed_mar_mbr {i : Instr} {u t : State} (h : Executed i u t) (hi : followsPointer i = false) :
    t.mar = u.mar ∧ t.mbr = u.mbr := by
  cases i with
  | addI _ | loadI _ | storeI _ => exact absurd hi nofun
  | skipCond _ => obtain ⟨-, rfl⟩ | ⟨-, -, rfl⟩ | ⟨-, -, rfl⟩ := h <;> exact ⟨rfl, rfl⟩
  | jnS _ | load _ | store _ | add _ | subt _ | input | output | halt | jump _ | clear | jumpI _ =>
    obtain rfl := h
    exact ⟨rfl, rfl⟩

/-- An execute phase that raises no error keeps the fatal flag, and MachineState unless it is Input's or Halt's. -/
theorem executed_fatal_mstate {i : Instr} {u t : State} (h : Executed i u t) (hi : mayRaise i = false) :
    t.fatal = u.fatal ∧ (writesMState i = false → t.mstate = u.mstate) := by
  cases i with
  | storeI _ => exact absurd hi nofun
  | skipCond cond =>
    obtain ⟨hcond, -⟩ | ⟨-, -, rfl⟩ | ⟨-, -, rfl⟩ := h
    · exact absurd hcond (beq_eq_false_iff_ne.mp hi)
    · exact ⟨rfl, fun _ => rfl⟩
    · exact ⟨rfl, fun _ => rfl⟩
  | input | halt =>
    obtain rfl := h
    exact ⟨rfl, nofun⟩
  | jnS _ | load _ | store _ | add _ | subt _ | output | jump _ | clear | addI _ | jumpI _ | loadI _ =>
    obtain rfl := h
    exact ⟨rfl, fun _ => rfl⟩

/-- A part of the state that the increment and a fatal error do not write is, after an instruction whose execute phase
keeps it, as the operand fetch left it. -/
theorem exec_keeps {α : Type} (part : State → α) {i : Instr} {s t : State} (h : exec i s = .next t)
    (hexec : ∀ u, Executed i u t → part t = part u) (hraise : ∀ c u, part (raiseFatal c u) = part u := by intros; rfl)
    (hincr : ∀ u, part (incremented u) = part u := by intros; rfl) : part t = part (decodedFor i s) := by
  obtain ⟨-, ⟨-, rfl⟩ | ⟨-, h⟩⟩ := exec_next h
  · exact hraise _ _
  · exact (hexec _ h).trans (hincr _)

theorem exec_ac {i : Instr} {s t : State} (h : exec i s = .next t) (hi : writesAC i = false) : t.ac = s.ac :=
  (exec_keeps State.ac h fun _ hu => executed_ac hu hi).trans (decodedFor_ac i s)

theorem exec_output {i : Instr} {s t : State} (h : exec i s = .next t) (hi : i ≠ .output) : t.output = s.output :=
  (exec_keeps State.output h fun _ hu => executed_output hu hi).trans (decodedFor_output i s)

/-- Without a pointer step, MAR and MBR are as the operand fetch left them. -/
theorem exec_mar_mbr {i : Instr} {s t : State} (h : exec i s = .next t) (hi : followsPointer i = false) :
    t.mar = (decodedFor i s).mar ∧ t.mbr = (decodedFor i s).mbr :=
  ⟨exec_keeps State.mar h fun _ hu => (executed_mar_mbr hu hi).1,
    exec_keeps State.mbr h fun _ hu => (executed_mar_mbr hu hi).2⟩

/-- Below the top of memory, the fatal flag and MachineState after an instruction that raises no error. -/
theorem exec_fatal_mstate {i : Instr} {s t : State} (h : exec i s = .next t) (hp : s.pc.value ≠ 4095#12)
    (hi : mayRaise i = false) : t.fatal = s.fatal ∧ (writesMState i = false → t.mstate = s.mstate) := by
  obtain ⟨-, ⟨htop, -⟩ | ⟨-, h⟩⟩ := exec_next h
  · exact absurd htop hp
  · obtain ⟨hfatal, hmstate⟩ := executed_fatal_mstate h hi
    exact ⟨hfatal.trans (decodedFor_fatal i s), fun hw => (hmstate hw).trans (decodedFor_mstate i s)⟩

theorem decodedFor_of_operandOf_none {i : Instr} (h : operandOf i = none) (s : State) : decodedFor i s = s := by
  rw [decodedFor, h]

theorem decodedFor_of_operandOf_some {i : Instr} {x : Addr12} (h : operandOf i = some x) (s : State) :
    decodedFor i s = operandFetched x s := by
  rw [decodedFor, h]

/-- The pointer step starts from a fetched operand. -/
theorem followsPointer_of_operandOf_none {i : Instr} (h : operandOf i = none) : followsPointer i = false := by
  cases i with
  | addI _ | loadI _ | storeI _ => exact absurd h nofun
  | jnS _ | load _ | store _ | add _ | subt _ | input | output | halt | skipCond _ | jump _ | clear | jumpI _ => rfl

/-- Settles O30, by the operand fetch and the execute phase of each instruction. -/
theorem instructionsKeepTheOtherRegisters : Obligations.InstructionsKeepTheOtherRegisters := by
  intro i s t h
  have hframe := exec_frame h
  refine ⟨hframe.ir, hframe.input, hframe.modes, hframe.controller, fun hi => ⟨exec_output h hi, ?_⟩, exec_ac h,
    fun hx => ?_, fun hi x hx => ?_, exec_fatal_mstate h⟩
  · exact (exec_outStream h).resolve_right fun ho => hi ho.1
  · simpa only [decodedFor_of_operandOf_none hx] using exec_mar_mbr h (followsPointer_of_operandOf_none hx)
  · obtain ⟨hmar, hmbr⟩ := exec_mar_mbr h hi
    rw [hmar, hmbr, decodedFor_of_operandOf_some hx]
    exact ⟨rfl, rfl⟩

end Sys2Proof.Machine
end

section
/-! SUPPORT. 41_memory_reference.md R130 to R135: wrapped arithmetic, and the whole effect of JnS, Load, Store, Add and Subt below the top of memory. -/

namespace Sys2Proof.Machine

/-! ### Wrapped arithmetic (R130) -/

/-- Settles O15: both wrapped results are the bit-vector operations, which are unsigned modulo 2^16. -/
theorem signedAndUnsignedArithmeticAgree : Obligations.SignedAndUnsignedArithmeticAgree := by
  intro a b
  rw [sum16_eq, difference16_eq]
  refine ⟨BitVec.toNat_add a b, ?_⟩
  have hb := b.isLt
  rw [BitVec.toNat_sub]
  omega

/-- JnS's return target: the low twelve bits of X + 1 as a word are X + 1 as an address, 0 at the top. -/
theorem setWidth_12_zext_succ (x : Addr12) : (x.setWidth 16 + 1#16).setWidth 12 = x + 1#12 := by
  rw [BitVec.setWidth_add _ _ (by decide), BitVec.setWidth_setWidth_of_le _ (by decide), BitVec.setWidth_eq]
  rfl

/-! ### The five instructions below the top of memory -/

/-- In Running below the top of memory, the decode phase of an operand-requiring opcode goes on to the execute phase. -/
theorem withOperand_running {s : State} (hrun : s.mstate = .running) (hp : s.pc.value ≠ 4095#12) (x : Addr12)
    (k : State → Result) : withOperand x s k = k (incremented (operandFetched x s)) :=
  withOperand_below (by simp [hrun]) hp x k

theorem exec_store {s : State} (hrun : s.mstate = .running) (hp : s.pc.value ≠ 4095#12) (x : Addr12) :
    exec (.store x) s =
      .next { incremented (operandFetched x s) with mem := s.mem.write x.toNat s.ac.value } :=
  (withOperand_running hrun hp x _).trans (memWrite_addr x _ _ _)

/-- The masking write of PC from AC goes to X + 1 (R131). -/
theorem exec_jnS {s : State} (hrun : s.mstate = .running) (hp : s.pc.value ≠ 4095#12) (x : Addr12) :
    exec (.jnS x) s =
      .next { incremented (operandFetched x s) with
        mem := s.mem.write x.toNat ((s.pc.value + 1#12).setWidth 16)
        ac := s.ac.holding (x.setWidth 16 + 1#16)
        pc := s.pc.holding (x + 1#12) } := by
  have hac : wrap16 ((x.toNat : Int) + 1) = x.setWidth 16 + 1#16 := wrap16_succ x
  have hpc : mask12 (sval (x.setWidth 16 + 1#16)) = x + 1#12 := by rw [mask12_sval, setWidth_12_zext_succ]
  rw [← hpc, ← hac]
  exact (withOperand_running hrun hp x _).trans (memWrite_addr x _ _ _)

/-- Settles O10: the write to the slot sets its cell and leaves the others. -/
theorem jnSSavesTheReturnAddress : Obligations.JnSSavesTheReturnAddress :=
  ⟨Laws.RoundTrip.jnS, fun x s hrun hp hwf => ⟨_, exec_jnS hrun hp x,
    Memory.read_write_same x.toNat _ hwf, fun _ ha => Memory.read_write_other s.mem _ ha⟩⟩

/-- Settles O11: the execute phase copies the fetched operand. -/
theorem loadReadsTheCell : Obligations.LoadReadsTheCell :=
  ⟨Laws.RoundTrip.load, fun x _ hrun hp => withOperand_running hrun hp x _⟩

/-- Settles O12: the write sets its cell and leaves the others. -/
theorem storeWritesTheCell : Obligations.StoreWritesTheCell :=
  ⟨Laws.RoundTrip.store, fun x s hrun hp hwf => ⟨_, exec_store hrun hp x,
    Memory.read_write_same x.toNat _ hwf, fun _ ha => Memory.read_write_other s.mem _ ha⟩⟩

/-- Settles O13: the execute phase adds the fetched operand, by `sum16`. -/
theorem addWrapsTheSignedSum : Obligations.AddWrapsTheSignedSum :=
  ⟨Laws.RoundTrip.add, fun x _ hrun hp => withOperand_running hrun hp x _⟩

/-- Settles O14: the execute phase subtracts the fetched operand, by `difference16`. -/
theorem subtWrapsTheSignedDifference : Obligations.SubtWrapsTheSignedDifference :=
  ⟨Laws.RoundTrip.subt, fun x _ hrun hp => withOperand_running hrun hp x _⟩

end Sys2Proof.Machine
end

section
/-! SUPPORT. 42_io_and_halt.md R150 to R154: the whole effect of Input, Output and Halt below the top of memory, and the waiting of the suspended and of the halted machine. -/

namespace Sys2Proof.Machine

/-! ### The three opcodes, whatever the operand (30_encoding.md R93) -/

/-- The opcode of a word written from its fields, as the number the decoder reads. -/
theorem opcodeField_append_toNat (opcode : BitVec 4) (x : Addr12) :
    (opcodeField (opcode ++ x)).toNat = opcode.toNat :=
  congrArg BitVec.toNat (opcodeField_wordOf opcode x)

/-! ### Outside Running -/

/-- The boundary check acts in Running only (60_exceptions.md R236). -/
theorem boundaryCheck_of_not_running {s : State} (h : s.mstate ≠ .running) : boundaryCheck s = s :=
  if_neg fun hb => h hb.2.1

/-- No cycle runs outside Running (60_exceptions.md R235): the machine waits as it is. -/
theorem letRun_of_not_running {s : State} (h : s.mstate ≠ .running) : letRun s = .next s :=
  if_neg fun hfree => h ((runsFreely_iff s).mp hfree).1

/-! ### The execute phases below the top of memory -/

/-- In Running below the top of memory, the decode phase of an opcode without an operand goes on to the execute phase. -/
theorem withoutOperand_running {s : State} (hrun : s.mstate = .running) (hp : s.pc.value ≠ 4095#12)
    (k : State → Result) : withoutOperand s k = k (incremented s) :=
  withoutOperand_below (by simp [hrun]) hp k

/-- Halt's target by the fatal flag (R154). -/
theorem haltState_eq_ite (f : Option ErrorCode) :
    haltState f = if f = none then .haltedNormal else .haltedAbnormal := by
  cases f with
  | none => rfl
  | some _ => rfl

theorem haltState_ne_running (f : Option ErrorCode) : haltState f ≠ .running := by
  cases f with
  | none => exact nofun
  | some _ => exact nofun

/-- After its increment, Halt writes MachineState by the flag and nothing else (R154). -/
theorem exec_halt {s : State} (hrun : s.mstate = .running) (hp : s.pc.value ≠ 4095#12) :
    exec .halt s = .next ((incremented s).setMState (haltState s.fatal)) :=
  withoutOperand_running hrun hp _

/-! ### The statements -/

/-- Settles O16: after the increment Input writes MachineState only, and in the state it leaves no cycle and no boundary
check acts. -/
theorem inputSuspendsTheMachine : Obligations.InputSuspendsTheMachine := by
  refine ⟨fun x => decode_input (opcodeField_append_toNat 0x5#4 x),
    fun s hrun hp => withoutOperand_running hrun hp _, fun s hblocked => ?_⟩
  have hwait : s.mstate ≠ .running := by simp [hblocked]
  exact ⟨boundaryCheck_of_not_running hwait, fun hn => noCycleRunsOutsideRunning s hn (.inl hwait)⟩

/-- Settles O18: after the increment Output copies AC and emits the value OUTPUT then holds. -/
theorem outputEmitsOneRecord : Obligations.OutputEmitsOneRecord :=
  ⟨fun x => decode_output (opcodeField_append_toNat 0x6#4 x), fun _ hrun hp => withoutOperand_running hrun hp _⟩

/-- Settles O19: Halt's target is read from the flag, and neither target is Running. -/
theorem haltReadsTheFatalFlag : Obligations.HaltReadsTheFatalFlag := by
  refine ⟨fun x => decode_halt (opcodeField_append_toNat 0x7#4 x), fun s hrun hp => ⟨_, exec_halt hrun hp, ?_, ?_⟩⟩
  · rw [← haltState_eq_ite]
    rfl
  · exact letRun_of_not_running (haltState_ne_running s.fatal)

end Sys2Proof.Machine
end

section
/-! SUPPORT. 43_branch_and_clear.md R170 to R173: the whole effect of SkipCond, Jump and Clear below the top of memory. -/

namespace Sys2Proof.Machine

/-! ### SkipCond's test and its skip -/

/-- The test of AC as R170 says it. It fails for condition 11, which SkipCond refuses before it tests. -/
theorem conditionHolds_iff (cond : BitVec 2) (ac : Word16) :
    conditionHolds cond ac = true ↔
      (cond = 0b00#2 ∧ ac.toInt < 0) ∨ (cond = 0b01#2 ∧ ac.toInt = 0) ∨ (cond = 0b10#2 ∧ 0 < ac.toInt) := by
  unfold conditionHolds
  split_ifs with hneg hzero hpos
  · simp [hneg]
  · simp [hzero]
  · simp [hpos]
  · simp [hneg, hzero, hpos]

/-- A write of PC after the increment replaces it. -/
theorem incremented_setPC (s : State) (v : Int) :
    (incremented s).setPC v = { s with pc := s.pc.holding (mask12 v) } := rfl

/-- The skip is a second masking increment (R171). -/
theorem incremented_setPC_succ (s : State) :
    (incremented s).setPC ((incremented s).pc.value.toNat + 1) =
      { s with pc := s.pc.holding (s.pc.value + 2#12) } := by
  have hpc : (incremented s).pc.value = s.pc.value + 1#12 := rfl
  rw [incremented_setPC, mask12_succ, hpc, BitVec.add_assoc]
  rfl

/-! ### SkipCond, outcome by outcome (R170), and Jump, below the top of memory -/

section
variable {s : State} (hrun : s.mstate = .running) (hp : s.pc.value ≠ 4095#12)
include hrun hp

/-- The illegal condition is a fatal error after the increment. -/
theorem exec_skipCond_of_cond_11 :
    exec (.skipCond 0b11#2) s = .next (raiseFatal .illegalConditionalOperand (incremented s)) :=
  (withoutOperand_running hrun hp _).trans (if_pos rfl)

theorem exec_skipCond_of_holds {cond : BitVec 2} (hcond : cond ≠ 0b11#2)
    (htest : conditionHolds cond s.ac.value = true) :
    exec (.skipCond cond) s = .next { s with pc := s.pc.holding (s.pc.value + 2#12) } := by
  rw [← incremented_setPC_succ s]
  exact (withoutOperand_running hrun hp _).trans ((if_neg hcond).trans (if_pos htest))

theorem exec_skipCond_of_not_holds {cond : BitVec 2} (hcond : cond ≠ 0b11#2)
    (htest : ¬conditionHolds cond s.ac.value = true) :
    exec (.skipCond cond) s = .next (incremented s) :=
  (withoutOperand_running hrun hp _).trans ((if_neg hcond).trans (if_neg htest))

/-- Jump's write of PC replaces the increment, and its mask leaves the operand as it is (R172). -/
theorem exec_jump (x : Addr12) : exec (.jump x) s = .next { s with pc := s.pc.holding x } := by
  have hexec : exec (.jump x) s = .next ((incremented s).setPC x.toNat) := withoutOperand_running hrun hp _
  rw [hexec, incremented_setPC, mask12_toNat]

end

/-! ### The statements -/

/-- Settles O20: condition 11 faults, and otherwise the test decides between the skip and the increment alone. -/
theorem skipCondTestsTheSignOfAC : Obligations.SkipCondTestsTheSignOfAC := by
  refine ⟨fun cond rest => ?_, fun cond s hrun hp => ⟨?_, fun hcond htest => ?_, fun hcond htest => ?_⟩⟩
  · have hcond : condField (0x8#4 ++ (cond ++ rest)) = cond := condField_wordOf 0x8#4 cond rest
    rw [decode_skipCond (opcodeField_append_toNat 0x8#4 (cond ++ rest)), hcond]
  · rintro rfl
    exact exec_skipCond_of_cond_11 hrun hp
  · exact exec_skipCond_of_holds hrun hp hcond ((conditionHolds_iff cond s.ac.value).mpr htest)
  · exact exec_skipCond_of_not_holds hrun hp hcond (mt (conditionHolds_iff cond s.ac.value).mp htest)

/-- Settles O21: the increment is overwritten by the operand. -/
theorem jumpGoesToItsOperand : Obligations.JumpGoesToItsOperand :=
  ⟨Laws.RoundTrip.jump, fun x _ hrun hp => exec_jump hrun hp x⟩

/-- Settles O22: the execute phase writes AC only, and the decoder reads no operand bit of the word. -/
theorem clearZeroesAC : Obligations.ClearZeroesAC :=
  ⟨fun x => decode_clear (opcodeField_append_toNat 0xA#4 x), fun _ hrun hp => withoutOperand_running hrun hp _⟩

end Sys2Proof.Machine
end

section
/-! SUPPORT. 44_indirect.md R190 to R196: the whole effect of AddI, JumpI, LoadI and StoreI below the top of memory, and the linkage of JnS and JumpI. -/

namespace Sys2Proof.Machine

/-! ### A word read as an address -/

/-- A word in the address space reads the same signed and unsigned. -/
theorem sval_of_toNat_le {w : Word16} (h : w.toNat ≤ 4095) : sval w = w.toNat :=
  BitVec.toInt_eq_toNat_of_lt (by omega)

/-- The low twelve bits are the residue modulo 4096. -/
theorem setWidth_12_eq_ofNat_mod (w : Word16) : w.setWidth 12 = BitVec.ofNat 12 (w.toNat % 4096) := by
  apply BitVec.eq_of_toNat_eq
  simp

/-- A return address stored as a word is the same address when it is masked. -/
theorem setWidth_12_zext (a : Addr12) : (a.setWidth 16).setWidth 12 = a := by
  rw [BitVec.setWidth_setWidth_of_le _ (by decide), BitVec.setWidth_eq]

/-! ### The execute phases below the top of memory -/

section
variable {s : State} (hrun : s.mstate = .running) (hp : s.pc.value ≠ 4095#12)
include hrun hp

/-- In Running below the top of memory, a form with a pointer step goes on from the followed pointer (R190). -/
theorem withOperand_pointerStep_running (x : Addr12) (k : State → Result) :
    withOperand x s (pointerStep · k) = k (pointerFollowed (incremented (operandFetched x s))) :=
  (withOperand_running hrun hp x _).trans (pointerStep_eq _ k)

/-- JumpI's masking write of PC replaces the increment (R192). -/
theorem exec_jumpI (x : Addr12) :
    exec (.jumpI x) s =
      .next { operandFetched x s with pc := s.pc.holding ((s.cell x).setWidth 12) } := by
  have hexec : exec (.jumpI x) s = .next ((incremented (operandFetched x s)).setPC (sval (s.cell x))) :=
    withOperand_running hrun hp x _
  rw [hexec, incremented_setPC, mask12_sval]
  rfl

/-- After its pointer step, StoreI is a write of AC at the second pointer, which is not masked (R194, R195). -/
theorem exec_storeI (x : Addr12) :
    exec (.storeI x) s =
      memWrite (sval (s.cell ((s.cell x).setWidth 12))) s.ac.value
        (pointerFollowed (incremented (operandFetched x s))) .next :=
  withOperand_pointerStep_running hrun hp x _

theorem exec_storeI_in_range {x : Addr12} (hq : (s.cell ((s.cell x).setWidth 12)).toNat ≤ 4095) :
    exec (.storeI x) s =
      .next { pointerFollowed (incremented (operandFetched x s)) with
        mem := s.mem.write (s.cell ((s.cell x).setWidth 12)).toNat s.ac.value } := by
  rw [exec_storeI hrun hp, sval_of_toNat_le hq, memWrite_in_range (by omega), Int.toNat_natCast]
  rfl

end

/-! ### The statements -/

/-- Settles O26: the write at the second pointer sets its cell and leaves the others. -/
theorem storeIStoresThroughTwoPointers : Obligations.StoreIStoresThroughTwoPointers :=
  ⟨Laws.RoundTrip.storeI, fun _ s hrun hp hwf hq => ⟨_, exec_storeI_in_range hrun hp hq,
    Memory.read_write_same _ _ hwf, fun _ ha => Memory.read_write_other s.mem _ ha⟩⟩

/-- Settles O27: the write finds the second pointer out of range, after the pointer step. -/
theorem storeIOutOfRangeIsFatal : Obligations.StoreIOutOfRangeIsFatal :=
  fun x _ hrun hp hq => (exec_storeI hrun hp x).trans
    (memWrite_out_of_range (fun hin => hq.elim hin.1.not_gt hin.2.not_gt) _ _ _)

/-- Settles O54: the slot still holds the return address that JnS stored, and JumpI masks it back to an address. -/
theorem jumpIReturnsFromJnS : Obligations.JumpIReturnsFromJnS := by
  intro slot s t u _ hp hwf hjns hrun hpu hslot
  have hstored : t.cell slot = (s.pc.value + 1#12).setWidth 16 :=
    exec_read_storeAddress hjns hp hwf rfl (addr_toNat_le slot)
  refine ⟨_, exec_jumpI hrun hpu slot, ?_, hrun⟩
  calc (u.cell slot).setWidth 12
    _ = ((s.pc.value + 1#12).setWidth 16).setWidth 12 := by rw [hslot, hstored]
    _ = s.pc.value + 1#12 := setWidth_12_zext _

/-- Settles O23: the execute phase adds the word at the followed pointer, by `sum16`. -/
theorem addIAddsThroughAPointer : Obligations.AddIAddsThroughAPointer :=
  ⟨Laws.RoundTrip.addI, fun x _ hrun hp => withOperand_pointerStep_running hrun hp x _⟩

/-- Settles O24: the masked pointer is the residue modulo 4096. -/
theorem jumpIGoesThroughAPointer : Obligations.JumpIGoesThroughAPointer := by
  refine ⟨Laws.RoundTrip.jumpI, fun x s hrun hp => ?_⟩
  rw [← setWidth_12_eq_ofNat_mod]
  exact exec_jumpI hrun hp x

/-- Settles O25: the execute phase copies the word at the followed pointer. -/
theorem loadIReadsThroughAPointer : Obligations.LoadIReadsThroughAPointer :=
  ⟨Laws.RoundTrip.loadI, fun x _ hrun hp => withOperand_pointerStep_running hrun hp x _⟩

end Sys2Proof.Machine
end

section
/-! SUPPORT. 60_exceptions.md R223 and R224: the rows that accept a command, and the step that takes a command from the agenda. -/

namespace Sys2Proof.Machine

/-! ### The rows of R223 -/

theorem resumable_iff (s : State) : resumable s = true ↔ resumes s.ctl s.mstate := decide_eq_true_iff

theorem stoppable_iff (s : State) :
    stoppable s = true ↔ s.mstate = .running ∨ s.mstate = .paused ∨ s.mstate = .blockedOnInput := decide_eq_true_iff

theorem constructed_iff (s : State) : constructed s = true ↔ s.mstate ≠ .uninitialized := decide_eq_true_iff

/-- The model accepts exactly by the rows. -/
theorem accepts_iff (c : Command) (s : State) : accepts c s = true ↔ AcceptedIn c s := by
  cases c with
  | reset => exact iff_of_true rfl trivial
  | run _ | step => exact resumable_iff s
  | pause | supply _ | inputInvalid => exact decide_eq_true_iff
  | stop => exact stoppable_iff s
  | setBreakpoint a _ => simp only [accepts, AcceptedIn, Bool.and_eq_true, constructed_iff, Option.isSome_iff_exists]
  | load _ | writeData _ _ | writeAddr _ _ | writeRegText _ _ | setMode _ _ | clearBreakpoints =>
    exact constructed_iff s

theorem accepts_eq_false_iff (c : Command) (s : State) : accepts c s = false ↔ ¬AcceptedIn c s := by
  rw [← accepts_iff, Bool.not_eq_true]

/-! ### The step that takes a command -/

/-- A command its row accepts has its effect and is answered; `step` runs its cycle too (R226). -/
theorem step_accepted {s : State} {c : Command} {rest : List HostMove} (hg : Gives s c rest) (ha : AcceptedIn c s) :
    step s = afterCommand c ((commandEffect c { s with agenda := rest }).1.tell
      (commandEffect c { s with agenda := rest }).2) := by
  have ha' : accepts c { s with agenda := rest } = true := (accepts_iff _ _).mpr ha
  unfold Gives at hg
  simp only [step, hg, hostCommand, ha', if_true]

theorem step_obeyed {s : State} {c : Command} {rest : List HostMove} (hg : Gives s c rest) (ha : AcceptedIn c s)
    (hc : c ≠ .step) :
    step s = .next ((commandEffect c { s with agenda := rest }).1.tell (commandEffect c { s with agenda := rest }).2) :=
  (step_accepted hg ha).trans (if_neg hc)

theorem step_not_accepted {s : State} {c : Command} {rest : List HostMove} (hg : Gives s c rest)
    (ha : ¬AcceptedIn c s) : step s = .next (answered s rest .refused) :=
  step_refused hg ((accepts_eq_false_iff c s).mpr ha)

end Sys2Proof.Machine
end

section
/-! SUPPORT. 60_exceptions.md R221, R222 and R235: every step has a next state, and MachineState follows the transition table. -/

namespace Sys2Proof.Machine

/-! ### Every cycle of a constructed machine has a next state -/

/-- Whatever state a phase is given, it answers a next state. -/
def AlwaysNext (k : State → Result) : Prop := ∀ u, ∃ t, k u = .next t

theorem alwaysNext_next (f : State → State) : AlwaysNext fun u => .next (f u) := fun u => ⟨f u, rfl⟩

theorem memWrite_alwaysNext (a : State → Int) (v : State → Word16) {k : State → Result} (hk : AlwaysNext k) :
    AlwaysNext fun u => memWrite (a u) (v u) u k := by
  intro u
  by_cases ha : 0 ≤ a u ∧ a u ≤ 4095
  · obtain ⟨t, ht⟩ := hk { u with mem := u.mem.write (a u).toNat (v u) }
    exact ⟨t, (memWrite_in_range ha (v u) u k).trans ht⟩
  · exact ⟨_, memWrite_out_of_range ha (v u) u k⟩

theorem pointerStep_alwaysNext {k : State → Result} (hk : AlwaysNext k) : AlwaysNext (pointerStep · k) := by
  intro u
  obtain ⟨t, ht⟩ := hk (pointerFollowed u)
  exact ⟨t, (pointerStep_eq u k).trans ht⟩

theorem withOperand_total {s : State} (hs : s.mstate ≠ .uninitialized) (x : Addr12) {k : State → Result}
    (hk : AlwaysNext k) : ∃ t, withOperand x s k = .next t := by
  by_cases hp : s.pc.value = 4095#12
  · exact ⟨_, withOperand_top hs hp x k⟩
  · exact withOperand_below hs hp x k ▸ hk _

theorem withoutOperand_total {s : State} (hs : s.mstate ≠ .uninitialized) {k : State → Result}
    (hk : AlwaysNext k) : ∃ t, withoutOperand s k = .next t := by
  by_cases hp : s.pc.value = 4095#12
  · exact ⟨_, withoutOperand_top hs hp k⟩
  · exact withoutOperand_below hs hp k ▸ hk _

/-- No instruction faults or is refused in a constructed machine: a fatal error is a next state (R213). -/
theorem exec_total {s : State} (hs : s.mstate ≠ .uninitialized) (i : Instr) : ∃ t, exec i s = .next t := by
  cases i with
  | jnS x => exact withOperand_total hs x (memWrite_alwaysNext _ _ (alwaysNext_next _))
  | store x => exact withOperand_total hs x (memWrite_alwaysNext _ _ (alwaysNext_next _))
  | load x | add x | subt x | jumpI x => exact withOperand_total hs x (alwaysNext_next _)
  | addI x | loadI x => exact withOperand_total hs x (pointerStep_alwaysNext (alwaysNext_next _))
  | storeI x =>
    exact withOperand_total hs x (pointerStep_alwaysNext (memWrite_alwaysNext _ _ (alwaysNext_next _)))
  | input | output | halt | jump _ | clear => exact withoutOperand_total hs (alwaysNext_next _)
  | skipCond cond =>
    refine withoutOperand_total hs fun u => ?_
    split
    · exact ⟨_, rfl⟩
    · split <;> exact ⟨_, rfl⟩

/-! ### The rows of R222 -/

/-- An instruction run in Running leaves MachineState at a target of the cycle, before the boundary check. -/
theorem exec_cycleTarget {i : Instr} {s u : State} (h : exec i s = .next u) (hrun : s.mstate = .running) (ctl : Ctl) :
    cycleTarget ctl u.mstate := by
  obtain hm | hm | hm | ⟨hm, -⟩ := exec_mstate h
  · exact .inl (hm.trans hrun)
  · exact .inr (.inl hm)
  · exact .inr (.inr (.inl hm))
  · exact .inr (.inr (.inr (.inl hm)))

/-- A cycle in Running has a next state, at one of the cycle's targets. -/
theorem cycle_follows {s : State} (hrun : s.mstate = .running) :
    ∃ t, cycle s = .next t ∧ cycleTarget s.ctl t.mstate := by
  cases hd : decode (s.cell s.pc.value) with
  | error e => exact ⟨_, cycle_illegalOpcode hd, .inr (.inr (.inr (.inl rfl)))⟩
  | ok i =>
    have hs : (fetched s).mstate ≠ .uninitialized := by simp [fetched, hrun]
    obtain ⟨u, hu⟩ := exec_total hs i
    refine ⟨boundaryCheck u, by rw [cycle_of_decode hd, hu, endCycle], ?_⟩
    obtain hb | ⟨hb, hctl, -⟩ := boundaryCheck_cases u <;> rw [hb]
    · exact exec_cycleTarget hu hrun s.ctl
    · obtain ⟨-, -, -, hsame, -⟩ := (exec_frame hu).controller
      exact .inr (.inr (.inr (.inr ⟨rfl, hsame.symm.trans hctl⟩)))

theorem letRun_follows (s : State) : ∃ t, letRun s = .next t ∧ TransitionRow none s.ctl s.mstate t.mstate := by
  obtain ⟨hrun, hctl, hl⟩ | ⟨-, hl⟩ := letRun_cases s
  · obtain ⟨t, ht, htarget⟩ := cycle_follows hrun
    exact ⟨t, by rw [hl, ← cycle_eq, ht], .inr ⟨hrun, hctl, htarget⟩⟩
  · exact ⟨s, hl, .inl rfl⟩

/-- Where no row accepts a command, the table asks that MachineState stay. -/
theorem transitionRow_refused {c : Command} {s : State} (h : ¬AcceptedIn c s) :
    TransitionRow (some c) s.ctl s.mstate s.mstate := by
  cases c with
  | reset => exact absurd trivial h
  | load _ => exact (if_pos (not_not.mp h)).mpr rfl
  | run _ | step => exact .inr ⟨h, rfl⟩
  | pause | stop | supply _ | inputInvalid => exact (if_neg h).mpr rfl
  | writeData _ _ | writeAddr _ _ | writeRegText _ _ | setMode _ _ | setBreakpoint _ _ | clearBreakpoints => rfl

theorem loadImage_mstate (image : Image) (s : State) :
    (loadImage image s).1.mstate = .haltedNormal ∨ (loadImage image s).1.mstate = .noProgramLoaded := by
  unfold loadImage
  split
  · rename_i rs _
    cases rs with
    | nil => exact .inr rfl
    | cons r rs => exact .inl rfl
  · exact .inr rfl

theorem hostReset_mstate (s : State) : (hostReset s).mstate = .noProgramLoaded := by
  unfold hostReset
  split <;> rfl

theorem writeData_mstate (d : DataReg) (v : Word16) (s : State) : (writeData d v s).mstate = s.mstate := by
  cases d <;> rfl

theorem writeAddr_mstate (a : AddrReg) (n : Int) (s : State) : (writeAddr a n s).mstate = s.mstate := by
  cases a <;> rfl

theorem writeText_mstate (r : Reg) (text : Text) (s : State) : (writeText r text s).1.mstate = s.mstate := by
  obtain h | ⟨d, v, -, h⟩ | ⟨a, n, -, h⟩ := writeText_cases r text s <;> rw [h]
  · exact writeData_mstate d v s
  · exact writeAddr_mstate a n s

theorem setRegMode_mstate (r : Reg) (m : Mode) (s : State) : (setRegMode r m s).mstate = s.mstate := by
  obtain (_ | _ | _ | _ | _) | (_ | _) := r <;> rfl

/-- `supply` enters Running, and the boundary check may pause the machine at once (R229, R236). -/
theorem supplyCommand_mstate (v : Word16) (s : State) :
    (supplyCommand v s).mstate = .running ∨ ((supplyCommand v s).mstate = .paused ∧ s.ctl = .runToBreakpoint) := by
  obtain h | ⟨h, hctl, -⟩ := boundaryCheck_cases (((s.setINPUT v).setAC v).setMState .running)
  · exact .inl (congrArg State.mstate h)
  · exact .inr ⟨congrArg State.mstate h, hctl⟩

/-- The effect of an accepted command, the cycle of `step` apart, takes MachineState by the command's row. -/
theorem transitionRow_accepted {c : Command} {s : State} (h : AcceptedIn c s) (hc : c ≠ .step) :
    TransitionRow (some c) s.ctl s.mstate (commandEffect c s).1.mstate := by
  cases c with
  | reset => exact hostReset_mstate s
  | load image => exact (if_neg h).mpr (loadImage_mstate image s)
  | run _ => exact .inl ⟨h, rfl⟩
  | step => exact absurd rfl hc
  | pause | stop | inputInvalid => exact (if_pos h).mpr rfl
  | supply v => exact (if_pos h).mpr (supplyCommand_mstate v s)
  | writeData d v => exact writeData_mstate d v s
  | writeAddr a n => exact writeAddr_mstate a n s
  | writeRegText r text => exact writeText_mstate r text s
  | setMode r m => exact setRegMode_mstate r m s
  | setBreakpoint _ _ | clearBreakpoints => rfl

theorem hostCommand_follows (c : Command) (s : State) :
    ∃ t, hostCommand c s = .next t ∧ TransitionRow (some c) s.ctl s.mstate t.mstate := by
  obtain ⟨ha, h⟩ | ⟨ha, hc, h⟩ | ⟨ha, rfl, h⟩ := hostCommand_cases c s
  · exact ⟨_, h, transitionRow_refused ((accepts_eq_false_iff c s).mp ha)⟩
  · exact ⟨_, h, transitionRow_accepted ((accepts_iff c s).mp ha) hc⟩
  · obtain ⟨t, ht, htarget⟩ := cycle_follows (s := (stepCommand s).tell .accepted) rfl
    exact ⟨t, by rw [h, ← cycle_eq, ht], .inl ⟨(accepts_iff .step s).mp ha, htarget⟩⟩

/-- Settles O33: a step is a command, which follows its row, or a boundary without one, which runs a cycle or waits. -/
theorem stateMachineFollowsTheTable : Obligations.StateMachineFollowsTheTable := by
  intro s
  obtain ⟨c, rest, hag, hs⟩ | ⟨hn, hs⟩ := step_cases s
  · have hn : nextCommand s = some c := by simp [nextCommand, hag]
    rw [hs, hn]
    exact hostCommand_follows c { s with agenda := rest }
  · rw [hs, hn]
    exact letRun_follows { s with agenda := s.agenda.tail }

end Sys2Proof.Machine
end

section
/-! SUPPORT. 60_exceptions.md R224 to R230 and R236: refusal, the commands that write MachineState, the completion of Input, breakpoints and the step command. -/

namespace Sys2Proof.Machine

/-! ### Refusal (R224) -/

/-- In these states the rows of `run` and `step` refuse. -/
theorem not_resumes {ctl : Ctl} {m : MState} (h : m = .noProgramLoaded ∨ m = .haltedByUser ∨ m = .blockedOnInput
    ∨ m = .uninitialized ∨ (m = .running ∧ ctl ≠ .singleStep)) : ¬resumes ctl m := by
  obtain rfl | rfl | rfl | rfl | ⟨rfl, hctl⟩ := h <;> simp [resumes, *]

/-- Settles O40: acceptance is `accepts_iff`, and the special cases are states that their rows do not name. -/
theorem refusedCommandsChangeNothing : Obligations.RefusedCommandsChangeNothing := by
  refine ⟨accepts_iff, fun s c rest hg ha => step_not_accepted hg ha, fun s c rest hg hc hm => ?_,
    fun s c rest hg hc => ?_⟩
  · apply step_not_accepted hg
    obtain rfl | ⟨m, rfl⟩ := hc <;> exact not_resumes hm
  · apply step_not_accepted hg
    obtain ⟨rfl, hm⟩ | ⟨rfl, hr, hp, hb⟩ | ⟨rfl | ⟨v, rfl⟩, hm⟩ := hc
    · exact hm
    · exact not_or.mpr ⟨hr, not_or.mpr ⟨hp, hb⟩⟩
    · exact hm
    · exact hm

/-! ### Commands that write MachineState (R225, R227, R228, R230) -/

/-- Settles O50: both effects are one record update. -/
theorem runAndStopTouchNoRegister : Obligations.RunAndStopTouchNoRegister :=
  ⟨fun _ _ _ hg ha => step_obeyed hg ha nofun, fun _ _ hg ha => step_obeyed hg ha nofun⟩

/-- Settles O51: the effect is one write of MachineState. -/
theorem pauseChangesNoRegister : Obligations.PauseChangesNoRegister :=
  fun _ _ hg ha => step_obeyed hg ha nofun

/-- Settles O52: the effect is `raiseFatal`. -/
theorem inputInvalidAbandonsTheInput : Obligations.InputInvalidAbandonsTheInput :=
  fun _ _ hg ha => step_obeyed hg ha nofun

/-! ### The completion of Input (R229) -/

/-- In Running, the boundary check pauses on a breakpoint line in RunToBreakpoint and does nothing else (R236). -/
theorem boundaryCheck_of_running {s : State} (h : s.mstate = .running) :
    boundaryCheck s =
      s.setMState (if s.ctl = .runToBreakpoint ∧ onBreakpoint s = true then .paused else .running) := by
  unfold boundaryCheck
  simp only [h, true_and]
  split
  · rfl
  · rw [← h]
    rfl

/-- `supply` copies the value through INPUT to AC, then runs or pauses. -/
theorem supplyCommand_eq (v : Word16) (s : State) :
    supplyCommand v s = { s with
      input := s.input.holding v
      ac := s.ac.holding v
      mstate := if s.ctl = .runToBreakpoint ∧ onBreakpoint s = true then .paused else .running } :=
  boundaryCheck_of_running (s := ((s.setINPUT v).setAC v).setMState .running) rfl

/-- In SingleStep no cycle runs without a command (R235). -/
theorem letRun_of_singleStep {s : State} (h : s.ctl = .singleStep) : letRun s = .next s :=
  if_neg fun hfree => ((runsFreely_iff s).mp hfree).2 h

theorem letRun_of_runs {s : State} (hrun : s.mstate = .running) (hctl : s.ctl ≠ .singleStep) : letRun s = cycle s :=
  if_pos ((runsFreely_iff s).mpr ⟨hrun, hctl⟩)

/-- Settles O17: the effect is `supplyCommand_eq`, and `ctl`, which it keeps, says whether cycles go on. -/
theorem supplyCompletesTheInput : Obligations.SupplyCompletesTheInput := by
  intro s v rest hg hblocked
  have hstep := step_obeyed hg hblocked nofun
  simp only [commandEffect, supplyCommand_eq] at hstep
  exact ⟨_, hstep, rfl, fun hctl => letRun_of_singleStep hctl, fun hrun hctl => letRun_of_runs hrun hctl⟩

/-! ### The boundary check at the end of a cycle (R236) -/

theorem onBreakpoint_iff (s : State) :
    onBreakpoint s = true ↔ ∃ e, indexFind s.addrIndex s.fetchAddr.toNat = some e ∧ e.breakpoint = true := by
  unfold onBreakpoint
  split
  · rename_i e he
    simp [he]
  · rename_i he
    simp [he]

/-- Settles O49: the step ends in the boundary check of `u`, which reads the fetch address, the entry and `ctl` as the
instruction kept them. -/
theorem breakpointPausesAfterTheInstruction : Obligations.BreakpointPausesAfterTheInstruction := by
  intro s u i hrun hd hu
  have hstep : step s = .next (boundaryCheck u) := by
    rw [stepRunsTheDecodedInstruction s i hrun hd, hu, endCycle]
  obtain ⟨hfetch, -, hindex, (hctl : u.ctl = s.ctl), -⟩ := (exec_frame hu).controller
  have hflag : onBreakpoint u = true ↔
      ∃ e, indexFind s.addrIndex s.pc.value.toNat = some e ∧ e.breakpoint = true := by
    rw [onBreakpoint_iff, hfetch, hindex]
    rfl
  rw [hstep, ← hflag, ← hctl]
  exact ⟨fun hb hm hf => congrArg _ (if_pos ⟨hb, hm, hf⟩), fun h => congrArg _ (if_neg h)⟩

/-! ### The step command (R226) -/

/-- Settles O53: the command's effect is one cycle of `stepCommand`'s state, by the word that cycle fetches. -/
theorem stepCommandRunsOneCycle : Obligations.StepCommandRunsOneCycle := by
  refine ⟨fun s i rest hg ha hd => ?_, fun s rest hg ha hword => ?_⟩
  · exact (step_accepted hg ha).trans
      (cycle_of_decode (s := { answered s rest .accepted with ctl := .singleStep, mstate := .running }) hd)
  · exact (step_accepted hg ha).trans
      (cycle_illegalOpcode (s := { answered s rest .accepted with ctl := .singleStep, mstate := .running })
        ((decode_illegalOpcode_iff _).mpr hword))

end Sys2Proof.Machine
end

section
/-! SUPPORT. 60_exceptions.md R231 to R234: the host's writes of registers, texts, modes and breakpoint flags. -/

namespace Sys2Proof.Machine

/-! ### Registers and texts -/

/-- The masking write of MAR and PC, with the residue modulo 4096 written out. -/
theorem mask12_eq_ofInt_emod (v : Int) : mask12 v = BitVec.ofInt 12 (v % 4096) := by
  apply BitVec.eq_of_toNat_eq
  simp only [mask12, BitVec.toNat_ofInt]
  omega

/-- Settles O45: each effect is one write of one register. -/
theorem writeRegSetsOneRegister : Obligations.WriteRegSetsOneRegister := by
  intro s rest hs
  simp only [← mask12_eq_ofInt_emod]
  refine ⟨?_, ?_, ?_, ?_, ?_, ?_, ?_⟩ <;> exact fun v hg => step_obeyed hg hs nofun

theorem parseAddrLiteral_eq_some (m : Mode) (t : Text) (n : Int) :
    parseAddrLiteral m t = some n ↔ LiteralIn m t n := parseIn_eq_some m t n

/-- A data register takes the literals of its mode, a decimal one in range only (R232, D18). -/
theorem parseDataLiteral_eq_some (m : Mode) (t : Text) (n : Int) :
    parseDataLiteral m t = some n ↔ LiteralIn m t n ∧ (m = .decimal → -32768 ≤ n ∧ n ≤ 32767) := by
  rw [← parseIn_eq_some]
  unfold parseDataLiteral
  cases parseIn m t with
  | none => simp
  | some k =>
    by_cases hk : m = .decimal ∧ ¬(-32768 ≤ k ∧ k ≤ 32767)
    · simp only [if_pos hk, Option.some.injEq]
      exact iff_of_false nofun fun ⟨hn, hrange⟩ => hk.2 (hn ▸ hrange hk.1)
    · simp only [if_neg hk, Option.some.injEq]
      exact ⟨fun hn => ⟨hn, fun hm => hn ▸ not_not.mp fun hrange => hk ⟨hm, hrange⟩⟩, And.left⟩

/-- A text that is no literal of the mode parses as nothing. -/
theorem parseLiteral_eq_none {m : Mode} {t : Text} (h : ∀ n, ¬LiteralIn m t n) :
    parseAddrLiteral m t = none ∧ parseDataLiteral m t = none :=
  ⟨Option.eq_none_iff_forall_ne_some.mpr fun n hn => h n ((parseAddrLiteral_eq_some m t n).mp hn),
    Option.eq_none_iff_forall_ne_some.mpr fun n hn => h n ((parseDataLiteral_eq_some m t n).mp hn).1⟩

/-- A hex literal is a bit pattern of a word. -/
theorem HexLiteral.range {t : Text} {n : Int} (h : HexLiteral t n) :
    1 ≤ t.length ∧ t.length ≤ 4 ∧ 0 ≤ n ∧ n ≤ 0xFFFF := by
  obtain ⟨hlow, hhigh, ds, hs, rfl⟩ := h
  have hlt : placeValue 16 ds < 16 ^ 4 :=
    hs.placeValue_lt.trans_le (Nat.pow_le_pow_right (by decide) hhigh)
  exact ⟨hlow, hhigh, by omega, by omega⟩

theorem modeOf_takingMove (r : Reg) (s : State) (rest : List HostMove) :
    modeOf r { s with agenda := rest } = modeOf r s := by
  obtain (_ | _ | _ | _ | _) | (_ | _) := r <;> rfl

theorem writeData_answered (d : DataReg) (v : Word16) (s : State) (rest : List HostMove) (r : Reply) :
    (writeData d v { s with agenda := rest }).tell r = writeData d v (answered s rest r) := by
  cases d <;> rfl

theorem writeAddr_answered (a : AddrReg) (n : Int) (s : State) (rest : List HostMove) (r : Reply) :
    (writeAddr a n { s with agenda := rest }).tell r = writeAddr a n (answered s rest r) := by
  cases a <;> rfl

/-- The step of a text given for a register, from what `writeText` answers. -/
theorem step_writeRegText {s u : State} {r : Reg} {text : Text} {rest : List HostMove} {reply : Reply}
    (hg : Gives s (.writeRegText r text) rest) (hs : s.mstate ≠ .uninitialized)
    (hw : writeText r text { s with agenda := rest } = (u, reply)) : step s = .next (u.tell reply) := by
  have hstep := step_obeyed hg hs nofun
  simpa only [commandEffect, hw] using hstep

/-- Settles O46: a step gives what `writeText` answers for what the text parses to, and what parses is what `LiteralIn`
says. -/
theorem registerTextIsParsedInItsMode : Obligations.RegisterTextIsParsedInItsMode := by
  refine ⟨fun s d text rest hg hs => ⟨fun hparse => ?_, fun n hparse => ?_⟩,
    fun s a text rest hg hs => ⟨fun hparse => ?_, fun n hparse => ?_⟩,
    parseAddrLiteral_eq_some, parseDataLiteral_eq_some, fun _ _ => parseLiteral_eq_none, fun text n h => ?_,
    fun text n h => ?_, fun text n => ?_⟩
  · exact step_writeRegText (u := { s with agenda := rest }) hg hs (by simp only [writeText, modeOf_takingMove, hparse])
  · rw [← writeData_answered]
    exact step_writeRegText hg hs (by simp only [writeText, modeOf_takingMove, hparse, wrap16])
  · exact step_writeRegText (u := { s with agenda := rest }) hg hs (by simp only [writeText, modeOf_takingMove, hparse])
  · rw [← writeAddr_answered]
    exact step_writeRegText hg hs (by simp only [writeText, modeOf_takingMove, hparse])
  · obtain ⟨hlit, -⟩ := (parseDataLiteral_eq_some .hex text n).mp h
    exact HexLiteral.range hlit
  · obtain ⟨-, hrange⟩ := (parseDataLiteral_eq_some .decimal text n).mp h
    exact hrange rfl
  · rw [parseDataLiteral_eq_some]
    exact and_iff_left nofun

/-! ### Modes -/

/-- `set_mode` writes the mode of the one register. -/
theorem modeOf_setRegMode (r r' : Reg) (m : Mode) (s : State) :
    modeOf r' (setRegMode r m s) = if r' = r then m else modeOf r' s := by
  obtain (_ | _ | _ | _ | _) | (_ | _) := r <;> obtain (_ | _ | _ | _ | _) | (_ | _) := r' <;> rfl

theorem modeOf_tell (r : Reg) (s : State) (reply : Reply) : modeOf r (s.tell reply) = modeOf r s := by
  obtain (_ | _ | _ | _ | _) | (_ | _) := r <;> rfl

/-- Settles O47: the modes by `modeOf_setRegMode`, everything else by `setRegMode_withoutModes`, and the stream as no
command but reset and load writes it. -/
theorem setModeKeepsEveryValue : Obligations.SetModeKeepsEveryValue := by
  intro s r m rest hg hs
  have hmode (r' : Reg) : modeOf r' ((setRegMode r m { s with agenda := rest }).tell .accepted) =
      if r' = r then m else modeOf r' s := by
    rw [modeOf_tell, modeOf_setRegMode, modeOf_takingMove]
  refine ⟨_, step_obeyed hg hs nofun, (hmode r).trans (if_pos rfl), fun r' hr => (hmode r').trans (if_neg hr),
    ?_, ?_⟩
  · exact congrArg (·.tell .accepted) (setRegMode_withoutModes r m { s with agenda := rest })
  · exact commandEffect_outStream (.setMode r m) { s with agenda := rest } nofun nofun

/-! ### Breakpoint flags -/

theorem indexFind_flag (l : List IndexEntry) (a b : Nat) (flag : Bool) :
    indexFind (indexFlag l a flag) b =
      (indexFind l b).map fun e => if b = a then { e with breakpoint := flag } else e := by
  rw [indexFlag, indexFind_map l _ fun e => by split <;> rfl]
  refine Option.map_congr fun e he => ?_
  rw [(indexFind_mem (Option.mem_def.mp he)).2]

theorem indexFind_clear (l : List IndexEntry) (b : Nat) :
    indexFind (indexClear l) b = (indexFind l b).map fun e => { e with breakpoint := false } :=
  indexFind_map l (fun e => { e with breakpoint := false }) (fun _ => rfl) b

theorem indexClear_idem (l : List IndexEntry) : indexClear (indexClear l) = indexClear l := List.map_map

/-- Settles O48: one flag by `indexFind_flag`, all flags by `indexFind_clear`. -/
theorem breakpointCommandsSetFlagsOnly : Obligations.BreakpointCommandsSetFlagsOnly := by
  refine ⟨fun s a flag rest hg hs => ⟨fun hnone => ?_, fun e he => ?_⟩, fun s rest hg hs => ?_, indexClear_idem⟩
  · exact step_not_accepted hg fun ⟨_, e, he⟩ => by simp [hnone] at he
  · refine ⟨indexFlag s.addrIndex a.toNat flag, step_obeyed hg ⟨hs, e, he⟩ nofun, ?_, fun b hb => ?_⟩
    · simp [indexFind_flag, he]
    · simp [indexFind_flag, hb]
  · exact ⟨_, step_obeyed hg hs nofun, indexFind_clear s.addrIndex⟩

end Sys2Proof.Machine
end

section
/-! SUPPORT. 70_reset_and_hazards.md R260 to R262: the state after reset, and the fatal flag, which nothing but reset and load clears. -/

namespace Sys2Proof.Machine

/-! ### Reset (R260, R261) -/

/-- The reset of a constructed machine: the state after reset, with the modes and the host's side as they are. -/
theorem resetBlock_eq (s : State) :
    resetBlock s = { State.reset with
      ac := ⟨0#16, s.ac.mode⟩, ir := ⟨0#16, s.ir.mode⟩, mbr := ⟨0#16, s.mbr.mode⟩, input := ⟨0#16, s.input.mode⟩
      output := ⟨0#16, s.output.mode⟩, mar := ⟨0#12, s.mar.mode⟩, pc := ⟨0#12, s.pc.mode⟩
      agenda := s.agenda, replies := s.replies, draws := s.draws } := rfl

/-- Construction puts the modes of `State.reset`, so its reset leaves nothing of the block. -/
theorem resetBlock_construct (s : State) :
    resetBlock (construct s) =
      { State.reset with agenda := s.agenda, replies := s.replies, draws := s.draws } := rfl

theorem hostReset_unconstructed {s : State} (h : s.mstate = .uninitialized) :
    hostReset s = resetBlock (construct s) := if_pos h

theorem hostReset_constructed {s : State} (h : s.mstate ≠ .uninitialized) : hostReset s = resetBlock s := if_neg h

theorem step_reset {s : State} {rest : List HostMove} (hg : Gives s .reset rest) :
    step s = .next ((hostReset { s with agenda := rest }).tell .accepted) := step_obeyed hg trivial nofun

/-- Settles O41: reset is accepted everywhere, and its effect is one of the two forms above. -/
theorem resetGivesTheResetState : Obligations.ResetGivesTheResetState := by
  refine fun s rest hg => ⟨fun hs => ?_, fun hs => ?_⟩
  · rw [step_reset hg, hostReset_unconstructed (s := { s with agenda := rest }) hs, resetBlock_construct]
    rfl
  · rw [step_reset hg, hostReset_constructed (s := { s with agenda := rest }) hs, resetBlock_eq]
    rfl

/-! ### The fatal flag (R262) -/

theorem boundaryCheck_fatal (s : State) : (boundaryCheck s).fatal = s.fatal := by
  obtain ⟨m, h⟩ := boundaryCheck_eq_setMState s
  rw [h, State.setMState_fatal]

theorem writeData_fatal (d : DataReg) (v : Word16) (s : State) : (writeData d v s).fatal = s.fatal := by
  cases d <;> rfl

theorem writeAddr_fatal (a : AddrReg) (n : Int) (s : State) : (writeAddr a n s).fatal = s.fatal := by
  cases a <;> rfl

theorem writeText_fatal (r : Reg) (text : Text) (s : State) : (writeText r text s).1.fatal = s.fatal := by
  obtain h | ⟨d, v, -, h⟩ | ⟨a, n, -, h⟩ := writeText_cases r text s <;> rw [h]
  · exact writeData_fatal d v s
  · exact writeAddr_fatal a n s

/-- No execute phase clears the fatal flag: it keeps it or sets it to a code. -/
theorem executed_fatal_ne_none {i : Instr} {u t : State} (h : Executed i u t) (hf : u.fatal ≠ none) :
    t.fatal ≠ none := by
  cases hi : mayRaise i with
  | false => exact (executed_fatal_mstate h hi).1 ▸ hf
  | true =>
    cases i with
    | skipCond _ =>
      obtain ⟨-, rfl⟩ | ⟨-, -, rfl⟩ | ⟨-, -, rfl⟩ := h
      · exact nofun
      · exact hf
      · exact hf
    | storeI _ =>
      obtain ⟨-, rfl⟩ | ⟨-, rfl⟩ := h
      · exact hf
      · exact nofun
    | _ => cases hi

theorem exec_fatal_ne_none {i : Instr} {s t : State} (h : exec i s = .next t) (hf : s.fatal ≠ none) :
    t.fatal ≠ none := by
  obtain ⟨-, ⟨-, rfl⟩ | ⟨-, h⟩⟩ := exec_next h
  · exact nofun
  · exact executed_fatal_ne_none h (decodedFor_fatal i s ▸ hf)

theorem cycle_fatal_ne_none {s t : State} (h : cycle s = .next t) (hf : s.fatal ≠ none) : t.fatal ≠ none := by
  obtain ⟨-, rfl⟩ | ⟨i, u, -, hu, rfl⟩ := cycle_next h
  · exact nofun
  · exact boundaryCheck_fatal u ▸ exec_fatal_ne_none hu hf

/-- No command but reset and load has an effect that clears the fatal flag. -/
theorem commandEffect_fatal_ne_none {c : Command} {s : State} (hr : c ≠ .reset) (hl : ∀ image, c ≠ .load image)
    (hf : s.fatal ≠ none) : (commandEffect c s).1.fatal ≠ none := by
  cases c with
  | reset => exact absurd rfl hr
  | load image => exact absurd rfl (hl image)
  | inputInvalid => exact nofun
  | supply v => exact (boundaryCheck_fatal _).trans_ne hf
  | writeData d v => exact (writeData_fatal d v s).trans_ne hf
  | writeAddr a n => exact (writeAddr_fatal a n s).trans_ne hf
  | writeRegText r text => exact (writeText_fatal r text s).trans_ne hf
  | setMode r m => obtain (_ | _ | _ | _ | _) | (_ | _) := r <;> exact hf
  | run _ | step | pause | stop | setBreakpoint _ _ | clearBreakpoints => exact hf

/-- Settles O35, by the cases of a step. -/
theorem onlyResetClearsTheFatalFlag : Obligations.OnlyResetClearsTheFatalFlag := by
  intro s t h hf ht
  cases step_next h with
  | waits _ he =>
    subst he
    exact absurd ht hf
  | refuses _ _ _ he =>
    subst he
    exact absurd ht hf
  | obeys c hn _ _ he =>
    subst he
    by_contra hc
    have hr : c ≠ .reset := fun he => hc (.inl (he ▸ hn))
    have hl : ∀ image, c ≠ .load image := fun image he => hc (.inr ⟨image, he ▸ hn⟩)
    exact commandEffect_fatal_ne_none (s := moveTaken s) hr hl hf ht
  | runsCycle _ _ hc => exact absurd ht (cycle_fatal_ne_none hc hf)
  | stepsCycle _ _ hc => exact absurd ht (cycle_fatal_ne_none hc hf)

end Sys2Proof.Machine
end

section
/-! SUPPORT. 70_reset_and_hazards.md R263 to R271: which images are accepted, what the loader writes, and the way from reset to the first instruction. -/

namespace Sys2Proof.Machine

/-! ### The addressed records of an image (R265, R266) -/

/-- The blank characters, written out (log 12). -/
theorem isWhitespace_eq_contains : Char.isWhitespace = fun c => [' ', '\t', '\r', '\n'].contains c := by
  funext c
  simp [Char.isWhitespace, Bool.or_assoc]

/-- Counting from any line, the addressed records are those whose address is not blank, each at its position. -/
theorem addressedFrom_eq (line : Nat) (rs : List ImageRecord) :
    addressedFrom line rs =
      ((rs.zipIdx line).filter fun p => !(p.1.address.all fun c => [' ', '\t', '\r', '\n'].contains c)).map
        fun p => (p.2, p.1) := by
  induction rs generalizing line with
  | nil => rfl
  | cons r rs ih =>
    rw [addressedFrom, ImageRecord.isBlank, isWhitespace_eq_contains, List.zipIdx_cons, List.filter_cons, ih]
    cases r.address.all fun c => [' ', '\t', '\r', '\n'].contains c <;> rfl

theorem addressedFrom_zero (rs : List ImageRecord) : addressedFrom 0 rs = addressedRecords rs := addressedFrom_eq 0 rs

/-- A record is malformed exactly where one of its two fields is. -/
theorem parseRecord_eq_none (p : Nat × ImageRecord) :
    parseRecord p = none ↔ ¬((∃ a, HexField 3 p.2.address a) ∧ ∃ w, HexField 4 p.2.word w) := by
  simp only [← hexField_eq_some, ← Option.isSome_iff_exists]
  unfold parseRecord
  cases hexField 3 p.2.address <;> cases hexField 4 p.2.word <;> simp

/-- Reading the records fails exactly where one is malformed. -/
theorem parseRecords_eq_none (ps : List (Nat × ImageRecord)) :
    parseRecords ps = none ↔ ∃ p ∈ ps, parseRecord p = none := by
  induction ps with
  | nil => simp [parseRecords]
  | cons p ps ih =>
    rw [List.exists_mem_cons_iff, ← ih, parseRecords]
    cases parseRecord p <;> cases parseRecords ps <;> simp

/-! ### The verdict on an image (R266) -/

theorem judgeImage_of_none {rs : List ImageRecord} (h : parseRecords (addressedFrom 0 rs) = none) :
    judgeImage (.records rs) =
      if (addressedFrom 0 rs).length ≤ 4096 then .error .invalidProgramImage else .error (overfullCode true) := by
  simp only [judgeImage, h, gt_iff_lt, ← Nat.not_le, ite_not]

theorem judgeImage_of_nil {rs : List ImageRecord} (h : parseRecords (addressedFrom 0 rs) = some []) :
    judgeImage (.records rs) = .error .invalidProgramImage := by
  simp only [judgeImage, h]

theorem judgeImage_of_cons {rs : List ImageRecord} {r : LoadedRecord} {loaded : List LoadedRecord}
    (h : parseRecords (addressedFrom 0 rs) = some (r :: loaded)) :
    judgeImage (.records rs) =
      if (addressedFrom 0 rs).length ≤ 4096 then .ok (r :: loaded) else .error .maxProgramReached := by
  simp only [judgeImage, h, gt_iff_lt, ← Nat.not_le, ite_not]
  rfl

/-- Accepted are the images of 1 to 4096 addressed records that are all read. -/
theorem judgeImage_eq_ok (rs : List ImageRecord) (loaded : List LoadedRecord) :
    judgeImage (.records rs) = .ok loaded ↔
      loaded ≠ [] ∧ (addressedFrom 0 rs).length ≤ 4096 ∧ parseRecords (addressedFrom 0 rs) = some loaded := by
  cases hp : parseRecords (addressedFrom 0 rs) with
  | none =>
    rw [judgeImage_of_none hp]
    split <;> simp
  | some read =>
    cases read with
    | nil =>
      rw [judgeImage_of_nil hp]
      exact iff_of_false nofun fun ⟨hne, _, he⟩ => hne (Option.some.inj he).symm
    | cons r read =>
      rw [judgeImage_of_cons hp]
      split
      · rename_i hl
        rw [Except.ok.injEq, Option.some.injEq]
        exact ⟨fun he => ⟨he ▸ List.cons_ne_nil r read, hl, he⟩, fun ⟨_, _, he⟩ => he⟩
      · rename_i hl
        exact iff_of_false nofun fun ⟨_, hle, _⟩ => hl hle

/-- An image without addressed records holds no program (R266, D23). -/
theorem judgeImage_of_empty {rs : List ImageRecord} (h : addressedFrom 0 rs = []) :
    judgeImage (.records rs) = .error .invalidProgramImage :=
  judgeImage_of_nil (congrArg parseRecords h)

/-- A malformed image within capacity is invalid. -/
theorem judgeImage_of_malformed {rs : List ImageRecord} (h : parseRecords (addressedFrom 0 rs) = none)
    (hl : (addressedFrom 0 rs).length ≤ 4096) : judgeImage (.records rs) = .error .invalidProgramImage :=
  (judgeImage_of_none h).trans (if_pos hl)

/-- A well formed image beyond capacity is too long (R266, D25). -/
theorem judgeImage_of_overfull {rs : List ImageRecord} (h : parseRecords (addressedFrom 0 rs) ≠ none)
    (hl : 4096 < (addressedFrom 0 rs).length) : judgeImage (.records rs) = .error .maxProgramReached := by
  obtain ⟨loaded, hp⟩ := Option.ne_none_iff_exists'.mp h
  have hlen : (addressedFrom 0 rs).length = loaded.length := ((parseRecords_eq_some _ _).mp hp).length_eq
  cases loaded with
  | nil => exact absurd (hlen ▸ hl) nofun
  | cons r loaded => exact (judgeImage_of_cons hp).trans (if_neg (Nat.not_le.mpr hl))

/-! ### What the loader writes (R263, R267) -/

/-- The last record at an address is one of the tail's, or else the head. -/
theorem lastAt_cons (r : LoadedRecord) (rs : List LoadedRecord) (a : Nat) :
    lastAt (r :: rs) a = (lastAt rs a).or (if r.addr.toNat = a then some r else none) := by
  simp [lastAt, List.find?_append, List.find?_singleton]

/-- Some record of a list that begins with `r` is the last at `r`'s address. -/
theorem lastAt_head (r : LoadedRecord) (rs : List LoadedRecord) : ∃ q, lastAt (r :: rs) r.addr.toNat = some q := by
  rw [lastAt_cons, if_pos rfl]
  cases lastAt rs r.addr.toNat with
  | none => exact ⟨r, rfl⟩
  | some q => exact ⟨q, rfl⟩

theorem loadRecord_read {s : State} (h : s.mem.wf = true) (r : LoadedRecord) (a : Nat) :
    (loadRecord s r).mem.read a = if r.addr.toNat = a then r.word else s.mem.read a := by
  split
  · rename_i ha
    exact ha ▸ Memory.read_write_same r.addr.toNat r.word h
  · rename_i ha
    exact Memory.read_write_other s.mem r.word (Ne.symm ha)

theorem loadRecord_indexFind (s : State) (r : LoadedRecord) (a : Nat) :
    indexFind (loadRecord s r).addrIndex a =
      if r.addr.toNat = a then some ⟨a, r.line, false⟩ else indexFind s.addrIndex a := by
  split
  · rename_i ha
    exact ha ▸ indexFind_put_same s.addrIndex ⟨r.addr.toNat, r.line, false⟩
  · rename_i ha
    exact indexFind_put_other s.addrIndex ⟨r.addr.toNat, r.line, false⟩ (Ne.symm ha)

/-- After all records a cell holds the word of the last record at it, or its old word. -/
theorem loadRecords_read (rs : List LoadedRecord) {s : State} (h : s.mem.wf = true) (a : Nat) :
    (loadRecords s rs).mem.read a = (lastAt rs a).elim (s.mem.read a) LoadedRecord.word := by
  induction rs generalizing s with
  | nil => rfl
  | cons r rs ih =>
    rw [loadRecords, ih (Memory.wf_write r.word h r.addr.isLt), loadRecord_read h, lastAt_cons]
    cases lastAt rs a <;> split <;> rfl

/-- After all records an address has the entry of the last record at it, or its old one. -/
theorem loadRecords_indexFind (rs : List LoadedRecord) (s : State) (a : Nat) :
    indexFind (loadRecords s rs).addrIndex a =
      (lastAt rs a).elim (indexFind s.addrIndex a) fun q => some ⟨a, q.line, false⟩ := by
  induction rs generalizing s with
  | nil => rfl
  | cons r rs ih =>
    rw [loadRecords, ih, loadRecord_indexFind, lastAt_cons]
    cases lastAt rs a <;> split <;> rfl

/-- An accepted load writes memory, the AddressIndex, PC and MachineState. -/
theorem acceptImage_eq (s : State) (r : LoadedRecord) (rs : List LoadedRecord) :
    acceptImage s (r :: rs) = { s with
      mem := (loadRecords s (r :: rs)).mem
      addrIndex := (loadRecords s (r :: rs)).addrIndex
      pc := s.pc.holding r.addr
      mstate := .haltedNormal } := by
  obtain ⟨m, l, h⟩ := loadRecords_frame (r :: rs) s
  simp only [acceptImage, h, State.setPC, State.setMState, AddrRegister.setValue, mask12_toNat]

/-! ### The step that loads -/

theorem step_load_accepted {s : State} {image : Image} {loaded : List LoadedRecord} {rest : List HostMove}
    (hg : Gives s (.load image) rest) (hs : s.mstate ≠ .uninitialized) (hj : judgeImage image = .ok loaded) :
    step s = .next ((acceptImage (resetBlock { s with agenda := rest }) loaded).tell .accepted) := by
  have hstep := step_obeyed hg hs nofun
  simpa only [commandEffect, loadImage, hj] using hstep

theorem step_load_rejected {s : State} {image : Image} {code : ErrorCode} {rest : List HostMove}
    (hg : Gives s (.load image) rest) (hs : s.mstate ≠ .uninitialized) (hj : judgeImage image = .error code) :
    step s = .next ((rejectImage (resetBlock { s with agenda := rest })).tell (.loadRejected code)) := by
  have hstep := step_obeyed hg hs nofun
  simpa only [commandEffect, loadImage, hj] using hstep

/-- An accepted load halts at the first record's address, where memory holds the word of the last record there. -/
theorem step_load_first_record {s : State} {image : Image} {r : LoadedRecord} {rs : List LoadedRecord}
    {rest : List HostMove} (hg : Gives s (.load image) rest) (hs : s.mstate ≠ .uninitialized)
    (hj : judgeImage image = .ok (r :: rs)) :
    ∃ t q, step s = .next t ∧ t.mstate = .haltedNormal ∧ t.pc.value = r.addr ∧ t.agenda = rest
      ∧ lastAt (r :: rs) r.addr.toNat = some q ∧ t.cell r.addr = q.word := by
  obtain ⟨q, hq⟩ := lastAt_head r rs
  have hstep := step_load_accepted hg hs hj
  rw [acceptImage_eq] at hstep
  refine ⟨_, q, hstep, rfl, rfl, rfl, hq, ?_⟩
  exact (loadRecords_read (r :: rs) (s := resetBlock { s with agenda := rest }) Memory.wf_nil _).trans (by rw [hq]; rfl)

/-! ### The statements -/

/-- Settles O42: the verdict is `judgeImage_eq_ok`, and the load writes its records on the reset machine. -/
theorem acceptedLoadPlacesTheProgram : Obligations.AcceptedLoadPlacesTheProgram := by
  refine ⟨fun rs loaded => ?_, fun s image r rs rest hg hs hj => ?_⟩
  · rw [judgeImage_eq_ok, parseRecords_eq_some, addressedFrom_zero]
    constructor
    · rintro ⟨hne, hlen, hall⟩
      exact ⟨List.length_pos_iff.mpr hne, hall.length_eq ▸ hlen, hall⟩
    · rintro ⟨hpos, hlen, hall⟩
      exact ⟨List.length_pos_iff.mp hpos, hall.length_eq ▸ hlen, hall⟩
  · have hstep := step_load_accepted hg hs hj
    rw [acceptImage_eq] at hstep
    refine ⟨_, hstep, rfl, rfl, fun a => ?_, fun a => ?_, rfl, rfl, rfl, rfl, rfl, rfl, rfl, rfl, rfl, rfl, rfl,
      SameModes.refl s, rfl, rfl⟩
    · refine (loadRecords_read (r :: rs) (s := resetBlock { s with agenda := rest }) Memory.wf_nil a).trans ?_
      cases lastAt (r :: rs) a <;> rfl
    · refine (loadRecords_indexFind (r :: rs) (resetBlock { s with agenda := rest }) a).trans ?_
      cases lastAt (r :: rs) a <;> rfl

/-- Settles O43: the grounds are the verdicts above, and the machine is the reset one, memory apart. -/
theorem rejectedLoadLeavesNoProgram : Obligations.RejectedLoadLeavesNoProgram := by
  refine ⟨addressedFrom_zero, parseRecord_eq_some, parseRecord_eq_none, rfl, fun rs => judgeImage_of_empty,
    fun rs hbad => judgeImage_of_malformed ((parseRecords_eq_none _).mpr hbad), fun rs hgood => ?_,
    fun s image code rest hg hs hj => ?_⟩
  · apply judgeImage_of_overfull
    rw [Ne, parseRecords_eq_none]
    exact fun ⟨p, hp, hbad⟩ => hgood p hp hbad
  · exact ⟨_, step_load_rejected hg hs hj, rfl, rfl, rfl, rfl, rfl, rfl, rfl, rfl, rfl, rfl, rfl, rfl, rfl, rfl,
      SameModes.refl s⟩

/-- Settles O60: the load halts at the first record, run (O50) enters Running there, and the cycle (O6) fetches the word
of the last record at that address. -/
theorem loadThenRunReachesTheFirstRecord : Obligations.LoadThenRunReachesTheFirstRecord := by
  intro image r rs m i hj hword
  obtain ⟨t, q, hload, hhalted, hpc, hagenda, hq, hcell⟩ := step_load_first_record
    (s := { State.reset with agenda := [.command (.load image), .command (.run m)] }) rfl nofun hj
  have hrun := runAndStopTouchNoRegister.1 t m [] hagenda (.inl hhalted)
  refine ⟨t, _, hload, hrun, rfl, hpc, rfl, ?_⟩
  have hdecode : decode (t.cell t.pc.value) = .ok i := by rw [hpc, hcell, hword q hq]
  have hctl : ctlOf m ≠ .singleStep := by cases m <;> exact nofun
  exact stepRunsTheDecodedInstruction { answered t [] .accepted with ctl := ctlOf m, mstate := .running } i
    ⟨rfl, hctl, rfl⟩ hdecode

end Sys2Proof.Machine
end
